-- ==== Sys2Proof/Word.lean ====
section
/-! DEFINITION. The word types of the pok-8 core and their plainest arithmetic (10_state.md R20, R23; 00_scope.md R9, R11). -/

namespace Sys2Proof

/-- A byte: a general register, a timer, a memory cell, an immediate `nn` (R20, R30, R33, R71). -/
abbrev Byte := BitVec 8

/-- A 16-bit word: `pc`, `I`, a stack slot, an instruction word (R23, R27, R28, R70). -/
abbrev Word := BitVec 16

/-- A 4-bit field of an instruction word: a register index `x` or `y`, or a row count `n` (R71). -/
abbrev Nibble := BitVec 4

/-- The 12-bit address field `nnn` (R71). -/
abbrev Addr12 := BitVec 12

/-- `zext_16` (R11): a byte or an address field as a 16-bit word. -/
def zext16 {k : Nat} (v : BitVec k) : Word := v.setWidth 16

end Sys2Proof
end

