-- ==== Sys2Proof/Config.lean ====
section
/-! DEFINITION. What the spec fixes for every pok-8 core (00_scope.md R7), the kinds of the parameters it leaves open (R8), and the free random byte. The hardware's value of each parameter stands in Machine/Params.lean. -/

namespace Sys2Proof.Config

/-- `MEM_SIZE` (R7). -/
@[simp] def memSize : Nat := 4096

/-- `FONT_BASE` (R7). -/
@[simp] def fontBase : Nat := 0

/-- `FONT_SIZE` (R7). -/
@[simp] def fontSize : Nat := 80

/-- `GLYPH_BYTES` (R7). -/
@[simp] def glyphBytes : Nat := 5

/-- `LOAD_BASE` (R7), also the reset entry point (R242). -/
@[simp] def loadBase : Nat := 0x200

/-- `MAX_IMAGE` (R7). -/
@[simp] def maxImage : Nat := 3584

/-- `INSN_BYTES` (R7). -/
@[simp] def insnBytes : Nat := 2

/-- `FB_W` (R7). -/
@[simp] def fbW : Nat := 64

/-- `FB_H` (R7). -/
@[simp] def fbH : Nat := 32

/-- `SYS_POLICY` (R8): which 0nnn words are the no-op. -/
inductive SysPolicy where
  | nop
  | zeroOnly
  deriving DecidableEq, Repr

/-- `VF_DEST_ORDER` (R8, R133): which of result and flag is written last. -/
inductive VfDestOrder where
  | flagLast
  | resultLast
  deriving DecidableEq, Repr

/-- `FONT_WRITE_POLICY` (R8, R58): what an instruction write to the font does. -/
inductive FontWritePolicy where
  | fault
  | ignore
  | write
  deriving DecidableEq, Repr

/-- `SPRITE_BIT_ORDER` (R8, R162): which bit of a sprite byte is column 0. -/
inductive SpriteBitOrder where
  | msbFirst
  | lsbFirst
  deriving DecidableEq, Repr

/-- FREE VALUE. `RNG` (R8, R224): the byte the random source supplies at its k-th draw. It has no value in this
model, so a claim about it holds for every sequence of draws (log 9). -/
opaque freeRandom : Nat → Byte

end Sys2Proof.Config
end

