-- ==== Sys2Proof/Machine/Params.lean ====
section
/-! DEFINITION. This hardware's value of every parameter of 00_scope.md R8 but the two OPEN ones (RNG: Config.freeRandom; TICK_SCHEDULE: State.script). -/

namespace Sys2Proof.Machine.Params

/-- `SYS_POLICY = nop` (R8; log 3). -/
abbrev sysPolicy : Config.SysPolicy := .nop

/-- `VF_DEST_ORDER = flag_last` (R8; log 4). -/
abbrev vfDestOrder : Config.VfDestOrder := .flagLast

/-- `FONT_WRITE_POLICY = fault` (R8; log 5). -/
abbrev fontWritePolicy : Config.FontWritePolicy := .fault

/-- `SPRITE_BIT_ORDER = msb_first` (R8; log 6). -/
abbrev spriteBitOrder : Config.SpriteBitOrder := .msbFirst

/-- `FONT_BYTES`: the table of 20_memory.md R53, one glyph a line (log 1). -/
def fontBytes : List Byte :=
  [0xF0, 0x90, 0x90, 0x90, 0xF0] ++
  [0x20, 0x60, 0x20, 0x20, 0x70] ++
  [0xF0, 0x10, 0xF0, 0x80, 0xF0] ++
  [0xF0, 0x10, 0xF0, 0x10, 0xF0] ++
  [0x90, 0x90, 0xF0, 0x10, 0x10] ++
  [0xF0, 0x80, 0xF0, 0x10, 0xF0] ++
  [0xF0, 0x80, 0xF0, 0x90, 0xF0] ++
  [0xF0, 0x10, 0x20, 0x40, 0x40] ++
  [0xF0, 0x90, 0xF0, 0x90, 0xF0] ++
  [0xF0, 0x90, 0xF0, 0x10, 0xF0] ++
  [0xF0, 0x90, 0xF0, 0x90, 0x90] ++
  [0xE0, 0x90, 0xE0, 0x90, 0xE0] ++
  [0xF0, 0x80, 0x80, 0x80, 0xF0] ++
  [0xE0, 0x90, 0x90, 0x90, 0xE0] ++
  [0xF0, 0x80, 0xF0, 0x80, 0xF0] ++
  [0xF0, 0x80, 0xF0, 0x80, 0x80]

end Sys2Proof.Machine.Params
end

