-- ==== Sys2Proof/Machine/State.lean ====
section
/-! DEFINITION. The state of the core (10_state.md R20 to R36), the host's pending commands, the faults (60_exceptions.md R201) and the state after reset. -/

namespace Sys2Proof.Machine

/-- The eight commands of the host interface (60_exceptions.md R220). `cycle`'s random byte comes from the free
source (log 9). -/
inductive HostCommand where
  | init
  | reset
  | load (bytes : List Byte)
  | cycle
  | tickTimers
  | keyDown (k : Nat)
  | keyUp (k : Nat)
  | display
  deriving DecidableEq, Repr

/-- The whole state. `script` and `draws` are the MODEL's own fields (logs 9 and 10); every other field is a row of
10_state.md R36. -/
structure State where
  /-- `V[0..15]`, VF = `V[15]` (R20, R21). -/
  regs : Vector Byte 16
  /-- `pc` (R23). -/
  pc : Word
  /-- `I` (R27). -/
  i : Word
  /-- `STACK[0..15]` (R28). -/
  stack : Vector Word 16
  /-- `SP`, 0..16 (R28). -/
  sp : Fin 17
  /-- `DT` (R30). -/
  dt : Byte
  /-- `ST` (R30). -/
  st : Byte
  /-- `KEY[0..15]`, true = pressed (R31). -/
  keys : Vector Bool 16
  /-- `FB[row][col]`, true = lit (R32). -/
  fb : Vector (Vector Bool 64) 32
  /-- `MEM[0..4095]` (R33): the bytes that differ from their reset value, in Memory.wf's form (log 20). -/
  mem : List Host.Cell
  /-- MODEL: the commands the host gives next, oldest first; an empty list means that the host calls `cycle`. -/
  script : List HostCommand
  /-- MODEL: how many random bytes have been taken from `Config.freeRandom`. -/
  draws : Nat
  deriving DecidableEq, Repr

/-- The faults a cycle can raise (R201), each with what its `raise` names. All are safe: the step answers a fault and no
state, so nothing can be proved of a state after one (log 8). -/
inductive Fault where
  /-- R202, safe: the decoder, on a word R77 calls illegal; `addr` is where it was fetched. -/
  | decodeFault (word addr : Word)
  /-- R203, safe: call with SP = 16; `pc0` is the address of the call. -/
  | stackOverflow (pc0 : Word)
  /-- R204, safe: return with SP = 0; `pc0` is the address of the return. -/
  | stackUnderflow (pc0 : Word)
  /-- R205, safe: fetch, draw, store-bcd, store-regs, load-regs; `addr` is the lowest address outside memory. -/
  | memoryRange (addr : Nat)
  /-- R206, safe: store-bcd, store-regs; `addr` is the lowest address in the font. -/
  | fontWrite (addr : Nat)
  /-- R207, safe: skip-if-key, skip-if-not-key with V[x] above 15. -/
  | keyIndex (key : Byte)
  deriving DecidableEq, Repr

/-- Why a host command is refused. A refused command changes nothing and the run goes on (93_implementation_defined.md
items 12 and 13; log 22), so these are no outcome of a step: the host sees them in the command's reply. -/
inductive CommandFault where
  /-- R208: `load` of more than 3584 bytes. -/
  | loadSize (len : Nat)
  /-- R209: `key_down` or `key_up` with a key id above 15. -/
  | keyIdRange (key : Nat)
  deriving DecidableEq, Repr

/-- Instructions without a meaning. No arm of exec uses it: all 35 instructions have theirs. -/
inductive Refusal where
  /-- Raised by no one (safe): an instruction whose meaning is not written. -/
  | notModelled (mnemonic : String)
  deriving DecidableEq, Repr

/-- The outcome type of every operation that ends a step. -/
abbrev Result := Host.Outcome State Fault Refusal

/-- R36: the state after `init` and after `reset`. No byte of memory differs from its reset value, so `mem` lists
nothing; `script` and `draws` are the model's own (logs 9 and 10). -/
def State.reset : State where
  regs := Vector.replicate 16 0#8
  pc := 0x200#16
  i := 0#16
  stack := Vector.replicate 16 0#16
  sp := 0
  dt := 0#8
  st := 0#8
  keys := Vector.replicate 16 false
  fb := Vector.replicate 32 (Vector.replicate 64 false)
  mem := []
  script := []
  draws := 0

end Sys2Proof.Machine
end

