-- ==== Sys2Proof/Machine/Memory.lean ====
section
/-! DEFINITION. The byte memory (20_memory.md): a list of the bytes that differ from their reset value, and the range and font checks of R57 and R58. -/

namespace Sys2Proof.Machine

/-- What an unlisted address reads as: its reset contents (10_state.md R36), FONT_BYTES from 0x000 and 0 after them. -/
def Memory.unlisted (a : Nat) : Byte := Params.fontBytes[a]?.getD 0#8

/-- The canonical form: addresses strictly rising, inside the memory, no byte equal to its reset value. -/
abbrev Memory.wf (m : List Host.Cell) : Prop :=
  m.Pairwise (fun c d => c.1 < d.1) ∧ ∀ c ∈ m, c.1 < Config.memSize ∧ c.2 ≠ Memory.unlisted c.1

/-- The byte at an address. -/
def Memory.read : List Host.Cell → Nat → Byte
  | [], a => Memory.unlisted a
  | (b, v) :: m, a => if b = a then v else Memory.read m a

/-- Put a byte in front of a list of higher addresses, or leave it out when it is its reset value. -/
def Memory.put (a : Nat) (v : Byte) (m : List Host.Cell) : List Host.Cell :=
  if v = Memory.unlisted a then m else (a, v) :: m

/-- Put a byte at its place in a rising list that does not list its address. -/
def Memory.insert : List Host.Cell → Nat → Byte → List Host.Cell
  | [], a, v => Memory.put a v []
  | (b, u) :: m, a, v => if a < b then Memory.put a v ((b, u) :: m) else (b, u) :: Memory.insert m a v

/-- Write one byte, keeping the canonical form. -/
def Memory.write (m : List Host.Cell) (a : Nat) (v : Byte) : List Host.Cell :=
  Memory.insert (m.filter (fun c => c.1 != a)) a v

/-- Write bytes at `a, a+1, …` in ascending order (R54). -/
def Memory.writeBytes (m : List Host.Cell) (a : Nat) : List Byte → List Host.Cell
  | [] => m
  | v :: vs => Memory.writeBytes (Memory.write m a v) (a + 1) vs

/-- Is the address in the font table (R52)? -/
def Memory.inFont (a : Nat) : Bool := decide (Config.fontBase ≤ a ∧ a < Config.fontBase + Config.fontSize)

/-- The `ignore` form of R58: bytes for the font range are skipped. -/
def Memory.writeOutsideFont (m : List Host.Cell) (a : Nat) : List Byte → List Host.Cell
  | [] => m
  | v :: vs => Memory.writeOutsideFont (if Memory.inFont a then m else Memory.write m a v) (a + 1) vs

/-- The addresses `addr .. addr+n-1` of an access, unbounded (R57, 42_index_memory.md R149). -/
def Memory.span (addr n : Nat) : List Nat := List.range' addr n

/-- The lowest address of an access outside the memory, if there is one (R57). -/
def Memory.firstOutside (addr n : Nat) : Option Nat :=
  (Memory.span addr n).find? (fun a => decide (Config.memSize ≤ a))

/-- The lowest address of an access in the font table, if there is one (R58). -/
def Memory.firstInFont (addr n : Nat) : Option Nat := (Memory.span addr n).find? Memory.inFont

end Sys2Proof.Machine
end

