-- ==== Sys2Proof/Machine/Ops.lean ====
section
/-! DEFINITION. The named operations over registers, pc, stack, memory, keypad, framebuffer and timers, and how an operation ends a command with a fault. -/

namespace Sys2Proof.Machine

/-! ### Ending a command (60_exceptions.md R200) -/

/-- `raise`: the command ends with a fault and nothing it wrote is kept (R200, R212). The core has no trap entry and
no return from one: a fault saves nothing, changes no mode and goes to no handler (R212, R213). -/
def raise (f : Fault) : Result := .fault f

/-- End a command with what an operation that may fault gave. -/
def finish : Except Fault State → Result
  | .ok s => .next s
  | .error f => raise f

/-! ### Registers (10_state.md R20 to R27) -/

/-- `V[x]`. -/
def State.getV (s : State) (x : Nibble) : Byte := s.regs[x.toNat]'x.isLt

/-- `V[x] <- v`. -/
def State.setV (s : State) (x : Nibble) (v : Byte) : State :=
  { s with regs := s.regs.set x.toNat v x.isLt }

/-- `V[k] <- bs[k]` for every k below the length of `bs` (42_index_memory.md R147). -/
def State.setBlock (s : State) (bs : List Byte) : State :=
  { s with regs := Vector.ofFn (fun k : Fin 16 => bs[k.val]?.getD s.regs[k]) }

/-- VF is register 15 (R21). -/
def vf : Nibble := 15#4

/-- `pc <- target`. -/
def State.setPc (s : State) (t : Word) : State := { s with pc := t }

/-- The fetch advance and the skip: `pc <- pc + 2` (R24). -/
def State.advance (s : State) : State := s.setPc (s.pc + 2#16)

/-- The address of the executing instruction, `pc0`; `pc` is already `pc0 + 2` (R23). -/
def State.pc0 (s : State) : Word := s.pc - 2#16

/-- A skip: "advance counter by 2 more" when its condition holds (R24). -/
def State.skipIf (s : State) (c : Bool) : State := if c then s.advance else s

/-- `I <- v`. -/
def State.setI (s : State) (v : Word) : State := { s with i := v }

/-- `DT <- v`. -/
def State.setDT (s : State) (v : Byte) : State := { s with dt := v }

/-- `ST <- v`. -/
def State.setST (s : State) (v : Byte) : State := { s with st := v }

/-! ### Call stack (R28, R29) -/

/-- `STACK[k] <- v`. -/
def State.setSlot (s : State) (k : Fin 16) (v : Word) : State :=
  { s with stack := s.stack.set k.val v k.isLt }

/-- `SP <- n`. -/
def State.setSP (s : State) (n : Fin 17) : State := { s with sp := n }

/-- `STACK[SP] <- v; SP <- SP + 1`, unless the stack is full. -/
def State.push (s : State) (v : Word) : Option State :=
  if h : s.sp.val < 16 then
    some ((s.setSlot ⟨s.sp.val, h⟩ v).setSP ⟨s.sp.val + 1, by omega⟩)
  else none

/-- `SP <- SP - 1`, and the value of `STACK[SP]` then; the slot keeps its value (R35). Unless the stack is empty. -/
def State.pop (s : State) : Option (Word × State) :=
  if h : s.sp.val = 0 then none
  else some (s.stack[s.sp.val - 1]'(by omega), s.setSP ⟨s.sp.val - 1, by omega⟩)

/-! ### Memory (20_memory.md R57, R58) -/

/-- The byte at an address. -/
def State.readByte (s : State) (a : Nat) : Byte := Memory.read s.mem a

/-- Replace the memory. -/
def State.setMem (s : State) (m : List Host.Cell) : State := { s with mem := m }

/-- `MemRead(addr, n)` (R57). -/
def State.memRead (s : State) (addr n : Nat) : Except Fault (List Byte) :=
  match Memory.firstOutside addr n with
  | some a => .error (.memoryRange a)
  | none => .ok ((Memory.span addr n).map s.readByte)

/-- `MemWrite(addr, n, bytes)` under a font policy (R58): every check comes before the first write. -/
def State.memWrite (s : State) (p : Config.FontWritePolicy) (addr : Nat) (bytes : List Byte) : Except Fault State :=
  match Memory.firstOutside addr bytes.length with
  | some a => .error (.memoryRange a)
  | none =>
    match p with
    | .write => .ok (s.setMem (Memory.writeBytes s.mem addr bytes))
    | .ignore => .ok (s.setMem (Memory.writeOutsideFont s.mem addr bytes))
    | .fault =>
      match Memory.firstInFont addr bytes.length with
      | some a => .error (.fontWrite a)
      | none => .ok (s.setMem (Memory.writeBytes s.mem addr bytes))

/-! ### Keypad (R31) -/

/-- `KEY[k]`. -/
def State.key (s : State) (k : Fin 16) : Bool := s.keys[k]

/-- `KEY[k] <- b`. -/
def State.setKey (s : State) (k : Fin 16) (b : Bool) : State := { s with keys := s.keys.set k.val b k.isLt }

/-- The lowest pressed key, if any (44_keys_timers.md R173). -/
def State.lowestKey (s : State) : Option (Fin 16) := (List.finRange 16).find? s.key

/-! ### Framebuffer (R32; 43_display.md) -/

/-- A framebuffer. -/
abbrev Grid := Vector (Vector Bool 64) 32

/-- A cell as (row, column). -/
abbrev CellPos := Fin 32 × Fin 64

/-- `FB[row][col]`. -/
def Grid.lit (g : Grid) (p : CellPos) : Bool := g[p.1][p.2]

/-- `FB[row][col] <- not FB[row][col]`. -/
def Grid.toggle (g : Grid) (p : CellPos) : Grid :=
  g.set p.1.val (g[p.1].set p.2.val (!Grid.lit g p) p.2.isLt) p.1.isLt

/-- `FB[row][col]` of a state. -/
def State.lit (s : State) (p : CellPos) : Bool := Grid.lit s.fb p

/-- Every cell unlit. -/
def Grid.blank : Grid := Vector.replicate 32 (Vector.replicate 64 false)

/-- Replace the framebuffer. -/
def State.setFb (s : State) (g : Grid) : State := { s with fb := g }

/-! ### Random source (60_exceptions.md R224) -/

/-- `draw8()`: the random byte this cycle receives. -/
def State.draw8 (s : State) : Byte := Config.freeRandom s.draws

/-- The byte has been taken; the next draw is another one. -/
def State.nextDraw (s : State) : State := { s with draws := s.draws + 1 }

end Sys2Proof.Machine
end

