-- ==== Sys2Proof/Machine/Flags.lean ====
section
/-! DEFINITION. Every value of the one flag, VF (10_state.md R21; 41_alu.md R120), and how a result and a flag are written (R133). -/

namespace Sys2Proof.Machine

/-- A flag as the byte 0 or 1 (R120). -/
def flagByte (f : Bool) : Byte := if f then 1#8 else 0#8

/-- Carry of `a + b`: the sum exceeds 255 (R120, R127). -/
def carry (a b : Byte) : Bool := decide (255 < a.toNat + b.toNat)

/-- No borrow in `a - b`: not `a < b` (R120, R128, R130). -/
def noBorrow (a b : Byte) : Bool := !decide (a.toNat < b.toNat)

/-- The bit shift-right shifts out, before the shift (R129). -/
def lowBit (a : Byte) : Bool := a.getLsbD 0

/-- The bit shift-left shifts out, before the shift (R131). -/
def highBit (a : Byte) : Bool := a.getLsbD 7

/-- `WriteRF(x, res, f)` under either order (R133). -/
def writeRF (o : Config.VfDestOrder) (x : Nibble) (res : Byte) (f : Bool) (s : State) : State :=
  match o with
  | .flagLast => (s.setV x res).setV vf (flagByte f)
  | .resultLast => (s.setV vf (flagByte f)).setV x res

end Sys2Proof.Machine
end

