-- ==== Sys2Proof/Syntax.lean ====
section
/-! DEFINITION. The 35 instructions of 30_encoding.md R73, one constructor per row, in the table's order. -/

namespace Sys2Proof

/-- The instruction set (R73). Operands are the fields of R71; `noOp` keeps its ignored `nnn` (R75), and the shifts
have no `y` operand (R129, R131; log 27). -/
inductive Instr where
  | noOp (nnn : Addr12)
  | clearScreen
  | ret
  | jump (nnn : Addr12)
  | call (nnn : Addr12)
  | skipEqImm (x : Nibble) (nn : Byte)
  | skipNeImm (x : Nibble) (nn : Byte)
  | skipEqReg (x y : Nibble)
  | setImm (x : Nibble) (nn : Byte)
  | addImm (x : Nibble) (nn : Byte)
  | setReg (x y : Nibble)
  | orReg (x y : Nibble)
  | andReg (x y : Nibble)
  | xorReg (x y : Nibble)
  | addReg (x y : Nibble)
  | subReg (x y : Nibble)
  | shiftRight (x : Nibble)
  | subRegRev (x y : Nibble)
  | shiftLeft (x : Nibble)
  | skipNeReg (x y : Nibble)
  | setIndex (nnn : Addr12)
  | jumpOffset (nnn : Addr12)
  | random (x : Nibble) (nn : Byte)
  | draw (x y n : Nibble)
  | skipIfKey (x : Nibble)
  | skipIfNotKey (x : Nibble)
  | readDelay (x : Nibble)
  | waitKey (x : Nibble)
  | setDelay (x : Nibble)
  | setSound (x : Nibble)
  | addIndex (x : Nibble)
  | setIndexFont (x : Nibble)
  | storeBcd (x : Nibble)
  | storeRegs (x : Nibble)
  | loadRegs (x : Nibble)
  deriving DecidableEq, Repr

end Sys2Proof
end

