-- ==== Sys2Proof/WellFormed.lean ====
section
/-! DEFINITION. Which terms of Instr stand for an instruction. The field widths are in the types; what is left is the no-op space of 30_encoding.md R74 and R76. -/

namespace Sys2Proof

/-- A `noOp` carries an `nnn` that R75 decodes to the no-op under the policy: never 0E0 or 0EE, which R74 gives to
clear-screen and return, and under `zero_only` nothing but 000. -/
def Instr.wfWith (p : Config.SysPolicy) : Instr → Bool
  | .noOp nnn => nnn != 0x0E0#12 && nnn != 0x0EE#12 && (p == .nop || nnn == 0#12)
  | _ => true

/-- Well-formedness on this hardware (`SYS_POLICY = nop`). -/
def Instr.wf (i : Instr) : Bool := i.wfWith Machine.Params.sysPolicy

end Sys2Proof
end

