-- ==== Sys2Proof/Decode.lean ====
section
/-! DEFINITION. Fields, big-endian words, the decoder of 30_encoding.md R75 and, after it, the encoder from the table of R73. -/

namespace Sys2Proof

/-! ### Fields of an instruction word (R71) -/

/-- `op = w[15:12]`. -/
def opOf (w : Word) : Nibble := w.extractLsb' 12 4
/-- `x = w[11:8]`. -/
def xOf (w : Word) : Nibble := w.extractLsb' 8 4
/-- `y = w[7:4]`. -/
def yOf (w : Word) : Nibble := w.extractLsb' 4 4
/-- `n = f = w[3:0]`. -/
def nOf (w : Word) : Nibble := w.extractLsb' 0 4
/-- `nn = ff = w[7:0]`. -/
def nnOf (w : Word) : Byte := w.extractLsb' 0 8
/-- `nnn = w[11:0]`. -/
def nnnOf (w : Word) : Addr12 := w.extractLsb' 0 12

/-- The word of two bytes in fetch order, `MEM[pc] ++ MEM[pc+1]` (R54). -/
def bigEndian (b0 b1 : Byte) : Word := b0 ++ b1
/-- The bytes of a word in memory order (R54). -/
def wordBytes (w : Word) : List Byte := [w.extractLsb' 8 8, w.extractLsb' 0 8]

/-! ### Decoder -/

/-- Why bytes are not an instruction: fewer than two of them, or a word R77 calls illegal. -/
inductive Reject where
  | truncated
  | illegalWord (w : Word)
  deriving DecidableEq, Repr

/-- The 8xyf group of R75. -/
def decodeAlu (w : Word) : Except Reject Instr :=
  match (nOf w).toNat with
  | 0x0 => .ok (.setReg (xOf w) (yOf w))
  | 0x1 => .ok (.orReg (xOf w) (yOf w))
  | 0x2 => .ok (.andReg (xOf w) (yOf w))
  | 0x3 => .ok (.xorReg (xOf w) (yOf w))
  | 0x4 => .ok (.addReg (xOf w) (yOf w))
  | 0x5 => .ok (.subReg (xOf w) (yOf w))
  | 0x6 => .ok (.shiftRight (xOf w))
  | 0x7 => .ok (.subRegRev (xOf w) (yOf w))
  | 0xE => .ok (.shiftLeft (xOf w))
  | _ => .error (.illegalWord w)

/-- The Exff group of R75. -/
def decodeKey (w : Word) : Except Reject Instr :=
  match (nnOf w).toNat with
  | 0x9E => .ok (.skipIfKey (xOf w))
  | 0xA1 => .ok (.skipIfNotKey (xOf w))
  | _ => .error (.illegalWord w)

/-- The Fxff group of R75. -/
def decodeMisc (w : Word) : Except Reject Instr :=
  match (nnOf w).toNat with
  | 0x07 => .ok (.readDelay (xOf w))
  | 0x0A => .ok (.waitKey (xOf w))
  | 0x15 => .ok (.setDelay (xOf w))
  | 0x18 => .ok (.setSound (xOf w))
  | 0x1E => .ok (.addIndex (xOf w))
  | 0x29 => .ok (.setIndexFont (xOf w))
  | 0x33 => .ok (.storeBcd (xOf w))
  | 0x55 => .ok (.storeRegs (xOf w))
  | 0x65 => .ok (.loadRegs (xOf w))
  | _ => .error (.illegalWord w)

/-- The 0nnn group of R75: the two fixed words first (R74), then the no-op space (R76). -/
def decodeSys (p : Config.SysPolicy) (w : Word) : Except Reject Instr :=
  if w = 0x00E0#16 then .ok .clearScreen
  else if w = 0x00EE#16 then .ok .ret
  else if p = .nop ∨ w = 0#16 then .ok (.noOp (nnnOf w))
  else .error (.illegalWord w)

/-- R75, total on every word, under either `SYS_POLICY`. -/
def decodeWith (p : Config.SysPolicy) (w : Word) : Except Reject Instr :=
  match (opOf w).toNat with
  | 0x0 => decodeSys p w
  | 0x1 => .ok (.jump (nnnOf w))
  | 0x2 => .ok (.call (nnnOf w))
  | 0x3 => .ok (.skipEqImm (xOf w) (nnOf w))
  | 0x4 => .ok (.skipNeImm (xOf w) (nnOf w))
  | 0x5 => if nOf w = 0#4 then .ok (.skipEqReg (xOf w) (yOf w)) else .error (.illegalWord w)
  | 0x6 => .ok (.setImm (xOf w) (nnOf w))
  | 0x7 => .ok (.addImm (xOf w) (nnOf w))
  | 0x8 => decodeAlu w
  | 0x9 => if nOf w = 0#4 then .ok (.skipNeReg (xOf w) (yOf w)) else .error (.illegalWord w)
  | 0xA => .ok (.setIndex (nnnOf w))
  | 0xB => .ok (.jumpOffset (nnnOf w))
  | 0xC => .ok (.random (xOf w) (nnOf w))
  | 0xD => .ok (.draw (xOf w) (yOf w) (nOf w))
  | 0xE => decodeKey w
  | _ => decodeMisc w

/-- The decoder of this hardware (`SYS_POLICY = nop`). -/
def decode (w : Word) : Except Reject Instr := decodeWith Machine.Params.sysPolicy w

/-- Decoding a stream of bytes: the first instruction and the bytes after it (R70, R54). -/
def decodeBytes : List Byte → Except Reject (Instr × List Byte)
  | b0 :: b1 :: rest =>
    match decode (bigEndian b0 b1) with
    | .ok i => .ok (i, rest)
    | .error e => .error e
  | _ => .error .truncated

/-! ### Encoder (R73) -/

/-- Format ADDR: `op nnn`. -/
def encAddr (op : Nibble) (nnn : Addr12) : Word := op ++ nnn
/-- Formats XNN and XFF: `op x nn`. -/
def encXNN (op x : Nibble) (nn : Byte) : Word := op ++ (x ++ nn : Addr12)
/-- Formats XYF and XYN: `op x y f`. -/
def encXYN (op x y f : Nibble) : Word := op ++ (x ++ (y ++ f : Byte) : Addr12)

/-- The word of an instruction, row by row of R73; the shifts take `y = 0` (R78). -/
def encode : Instr → Word
  | .noOp nnn => encAddr 0x0 nnn
  | .clearScreen => 0x00E0
  | .ret => 0x00EE
  | .jump nnn => encAddr 0x1 nnn
  | .call nnn => encAddr 0x2 nnn
  | .skipEqImm x nn => encXNN 0x3 x nn
  | .skipNeImm x nn => encXNN 0x4 x nn
  | .skipEqReg x y => encXYN 0x5 x y 0x0
  | .setImm x nn => encXNN 0x6 x nn
  | .addImm x nn => encXNN 0x7 x nn
  | .setReg x y => encXYN 0x8 x y 0x0
  | .orReg x y => encXYN 0x8 x y 0x1
  | .andReg x y => encXYN 0x8 x y 0x2
  | .xorReg x y => encXYN 0x8 x y 0x3
  | .addReg x y => encXYN 0x8 x y 0x4
  | .subReg x y => encXYN 0x8 x y 0x5
  | .shiftRight x => encXYN 0x8 x 0x0 0x6
  | .subRegRev x y => encXYN 0x8 x y 0x7
  | .shiftLeft x => encXYN 0x8 x 0x0 0xE
  | .skipNeReg x y => encXYN 0x9 x y 0x0
  | .setIndex nnn => encAddr 0xA nnn
  | .jumpOffset nnn => encAddr 0xB nnn
  | .random x nn => encXNN 0xC x nn
  | .draw x y n => encXYN 0xD x y n
  | .skipIfKey x => encXNN 0xE x 0x9E
  | .skipIfNotKey x => encXNN 0xE x 0xA1
  | .readDelay x => encXNN 0xF x 0x07
  | .waitKey x => encXNN 0xF x 0x0A
  | .setDelay x => encXNN 0xF x 0x15
  | .setSound x => encXNN 0xF x 0x18
  | .addIndex x => encXNN 0xF x 0x1E
  | .setIndexFont x => encXNN 0xF x 0x29
  | .storeBcd x => encXNN 0xF x 0x33
  | .storeRegs x => encXNN 0xF x 0x55
  | .loadRegs x => encXNN 0xF x 0x65

/-- The two bytes of an instruction in memory order (R54). -/
def encodeBytes (i : Instr) : List Byte := wordBytes (encode i)

/-- A row of R73's opcode map: a word matches it when `w AND mask = pattern`. -/
structure OpcodeRow where
  mask : Word
  pattern : Word
  deriving DecidableEq, Repr

/-- The row of R73 that an instruction stands on. -/
def Instr.row : Instr → OpcodeRow
  | .noOp _ => ⟨0xF000, 0x0000⟩
  | .clearScreen => ⟨0xFFFF, 0x00E0⟩
  | .ret => ⟨0xFFFF, 0x00EE⟩
  | .jump _ => ⟨0xF000, 0x1000⟩
  | .call _ => ⟨0xF000, 0x2000⟩
  | .skipEqImm _ _ => ⟨0xF000, 0x3000⟩
  | .skipNeImm _ _ => ⟨0xF000, 0x4000⟩
  | .skipEqReg _ _ => ⟨0xF00F, 0x5000⟩
  | .setImm _ _ => ⟨0xF000, 0x6000⟩
  | .addImm _ _ => ⟨0xF000, 0x7000⟩
  | .setReg _ _ => ⟨0xF00F, 0x8000⟩
  | .orReg _ _ => ⟨0xF00F, 0x8001⟩
  | .andReg _ _ => ⟨0xF00F, 0x8002⟩
  | .xorReg _ _ => ⟨0xF00F, 0x8003⟩
  | .addReg _ _ => ⟨0xF00F, 0x8004⟩
  | .subReg _ _ => ⟨0xF00F, 0x8005⟩
  | .shiftRight _ => ⟨0xF00F, 0x8006⟩
  | .subRegRev _ _ => ⟨0xF00F, 0x8007⟩
  | .shiftLeft _ => ⟨0xF00F, 0x800E⟩
  | .skipNeReg _ _ => ⟨0xF00F, 0x9000⟩
  | .setIndex _ => ⟨0xF000, 0xA000⟩
  | .jumpOffset _ => ⟨0xF000, 0xB000⟩
  | .random _ _ => ⟨0xF000, 0xC000⟩
  | .draw _ _ _ => ⟨0xF000, 0xD000⟩
  | .skipIfKey _ => ⟨0xF0FF, 0xE09E⟩
  | .skipIfNotKey _ => ⟨0xF0FF, 0xE0A1⟩
  | .readDelay _ => ⟨0xF0FF, 0xF007⟩
  | .waitKey _ => ⟨0xF0FF, 0xF00A⟩
  | .setDelay _ => ⟨0xF0FF, 0xF015⟩
  | .setSound _ => ⟨0xF0FF, 0xF018⟩
  | .addIndex _ => ⟨0xF0FF, 0xF01E⟩
  | .setIndexFont _ => ⟨0xF0FF, 0xF029⟩
  | .storeBcd _ => ⟨0xF0FF, 0xF033⟩
  | .storeRegs _ => ⟨0xF0FF, 0xF055⟩
  | .loadRegs _ => ⟨0xF0FF, 0xF065⟩

/-- The word of an `nbits`-bit table word; the bits above `nbits` are 0, and R70 has no longer instruction. -/
def tableWord (nbits w : Nat) : Word := BitVec.ofNat 16 (w % 2 ^ nbits)

/-- What the decoder reads from the bytes of a table word, laid out as the hardware stores them (R54). -/
def decodeTableWord (nbits w : Nat) : Option Instr :=
  match decodeBytes (wordBytes (tableWord nbits w)) with
  | .ok (i, _) => some i
  | .error _ => none

end Sys2Proof
end

