-- ==== Sys2Proof/Machine/Operands.lean ====
section
/-! DEFINITION. The operand forms of the instruction set: addresses from `nnn`, the base address I, the block V[0..x], sprite rows and their cells, and the digit converter. -/

namespace Sys2Proof.Machine

/-- A control target: `nnn` zero-extended (40_control.md R101). -/
def absTarget (nnn : Addr12) : Word := zext16 nnn

/-- The target of jump-offset: `V[0] + nnn`, not masked (40_control.md R109). -/
def offsetTarget (s : State) (nnn : Addr12) : Word := zext16 (s.getV 0#4) + zext16 nnn

/-- The base address of the memory instructions: `I` as an unbounded integer (42_index_memory.md R149). -/
def baseAddr (s : State) : Nat := s.i.toNat

/-- The number of registers in V[0..x], x included (42_index_memory.md R146, R147). -/
def blockLen (x : Nibble) : Nat := x.toNat + 1

/-- `[V[0], ..., V[x]]` (42_index_memory.md R146). -/
def regBlock (s : State) (x : Nibble) : List Byte := s.regs.toList.take (blockLen x)

/-! ### The digit converter (42_index_memory.md R143) -/

/-- One slot of the accumulator: add 3 when its 4 bits are 5 or more. -/
def bcdCorrect (acc : BitVec 20) (slot : Nat) : BitVec 20 :=
  if 5 ≤ (acc.extractLsb' slot 4).toNat then acc + (3#20 <<< slot) else acc

/-- One iteration: correct the ones, tens and hundreds slots, then shift left by one. -/
def bcdIter (acc : BitVec 20) : BitVec 20 :=
  (bcdCorrect (bcdCorrect (bcdCorrect acc 8) 12) 16) <<< 1

/-- `k` iterations. -/
def bcdLoop : Nat → BitVec 20 → BitVec 20
  | 0, acc => acc
  | k + 1, acc => bcdLoop k (bcdIter acc)

/-- A slot of the accumulator as a byte. -/
def bcdSlot (acc : BitVec 20) (slot : Nat) : Byte := (acc.extractLsb' slot 4).setWidth 8

/-- `bcd3(v)` by double-dabble, 8 iterations: hundreds, tens, ones. -/
def bcd3 (v : Byte) : List Byte :=
  let acc := bcdLoop 8 (v.setWidth 20)
  [bcdSlot acc 16, bcdSlot acc 12, bcdSlot acc 8]

/-! ### Sprites (43_display.md R161 to R163) -/

/-- Is the sprite bit of a column set? Column 0 is bit 7 under `msb_first` (R162). -/
def spriteBit (o : Config.SpriteBitOrder) (row : Byte) (col : Nat) : Bool :=
  match o with
  | .msbFirst => row.getLsbD (7 - col)
  | .lsbFirst => row.getLsbD col

/-- The cell of sprite row `r` and column `col`: the sums wrap at 32 and 64 (R163). -/
def spriteCell (cx cy : Byte) (r col : Nat) : CellPos :=
  (Fin.ofNat 32 (cy.toNat + r), Fin.ofNat 64 (cx.toNat + col))

/-- The cells of the set bits of one row, left to right. -/
def rowCells (o : Config.SpriteBitOrder) (cx cy : Byte) (r : Nat) (row : Byte) : List CellPos :=
  ((List.range 8).filter (spriteBit o row)).map (spriteCell cx cy r)

/-- The cells of the set bits of all rows from row `r` on, in the order R161 visits them. -/
def spriteCells (o : Config.SpriteBitOrder) (cx cy : Byte) (r : Nat) : List Byte → List CellPos
  | [] => []
  | row :: rows => rowCells o cx cy r row ++ spriteCells o cx cy (r + 1) rows

/-- R161's inner loop over the cells of set bits: collect the collision, then toggle. -/
def plot (g : Grid) (c : Bool) : List CellPos → Grid × Bool
  | [] => (g, c)
  | p :: ps => plot (Grid.toggle g p) (c || Grid.lit g p) ps

end Sys2Proof.Machine
end

