-- ==== Sys2Proof/Machine/Alu.lean ====
section
/-! DEFINITION. Register arithmetic and logic (41_alu.md R121 to R133). -/

namespace Sys2Proof.Machine

/-- set-imm (R121). -/
def execSetImm (x : Nibble) (nn : Byte) (s : State) : Result := .next (s.setV x nn)

/-- add-imm (R122): wraps, and no flag is written. -/
def execAddImm (x : Nibble) (nn : Byte) (s : State) : Result := .next (s.setV x (s.getV x + nn))

/-- set-reg (R123). -/
def execSetReg (x y : Nibble) (s : State) : Result := .next (s.setV x (s.getV y))

/-- or (R124); VF is not reset (log 18). -/
def execOrReg (x y : Nibble) (s : State) : Result := .next (s.setV x (s.getV x ||| s.getV y))

/-- and (R125); VF is not reset (log 18). -/
def execAndReg (x y : Nibble) (s : State) : Result := .next (s.setV x (s.getV x &&& s.getV y))

/-- xor (R126); VF is not reset (log 18). -/
def execXorReg (x y : Nibble) (s : State) : Result := .next (s.setV x (s.getV x ^^^ s.getV y))

/-- add-reg (R127). -/
def execAddReg (x y : Nibble) (s : State) : Result :=
  .next (writeRF Params.vfDestOrder x (s.getV x + s.getV y) (carry (s.getV x) (s.getV y)) s)

/-- sub-reg (R128). -/
def execSubReg (x y : Nibble) (s : State) : Result :=
  .next (writeRF Params.vfDestOrder x (s.getV x - s.getV y) (noBorrow (s.getV x) (s.getV y)) s)

/-- shift-right (R129). -/
def execShiftRight (x : Nibble) (s : State) : Result :=
  .next (writeRF Params.vfDestOrder x (s.getV x >>> 1) (lowBit (s.getV x)) s)

/-- sub-reg-rev (R130). -/
def execSubRegRev (x y : Nibble) (s : State) : Result :=
  .next (writeRF Params.vfDestOrder x (s.getV y - s.getV x) (noBorrow (s.getV y) (s.getV x)) s)

/-- shift-left (R131). -/
def execShiftLeft (x : Nibble) (s : State) : Result :=
  .next (writeRF Params.vfDestOrder x (s.getV x <<< 1) (highBit (s.getV x)) s)

/-- random (R132) with a given random byte `r`. -/
def randomWith (r : Byte) (x : Nibble) (nn : Byte) (s : State) : Result := .next (s.setV x (r &&& nn))

/-- random (R132): `r` is the cycle's free byte (log 9). -/
def execRandom (x : Nibble) (nn : Byte) (s : State) : Result := randomWith s.draw8 x nn s.nextDraw

end Sys2Proof.Machine
end

