-- ==== Sys2Proof/Machine/Control.lean ====
section
/-! DEFINITION. Control transfer (40_control.md R100 to R109). In every meaning `pc` already holds `pc0 + 2` (30_encoding.md R80). -/

namespace Sys2Proof.Machine

/-- no-op (R100): nothing. -/
def execNoOp (_nnn : Addr12) (s : State) : Result := .next s

/-- return (R102). -/
def execRet (s : State) : Result :=
  match s.pop with
  | none => raise (.stackUnderflow s.pc0)
  | some (target, t) => .next (t.setPc target)

/-- jump (R103). -/
def execJump (nnn : Addr12) (s : State) : Result := .next (s.setPc (absTarget nnn))

/-- call (R104): the pushed value is `pc`, already `pc0 + 2`. -/
def execCall (nnn : Addr12) (s : State) : Result :=
  match s.push s.pc with
  | none => raise (.stackOverflow s.pc0)
  | some t => .next (t.setPc (absTarget nnn))

/-- skip-eq-imm (R105). -/
def execSkipEqImm (x : Nibble) (nn : Byte) (s : State) : Result := .next (s.skipIf (s.getV x == nn))

/-- skip-ne-imm (R106). -/
def execSkipNeImm (x : Nibble) (nn : Byte) (s : State) : Result := .next (s.skipIf (s.getV x != nn))

/-- skip-eq-reg (R107). -/
def execSkipEqReg (x y : Nibble) (s : State) : Result := .next (s.skipIf (s.getV x == s.getV y))

/-- skip-ne-reg (R108). -/
def execSkipNeReg (x y : Nibble) (s : State) : Result := .next (s.skipIf (s.getV x != s.getV y))

/-- jump-offset (R109). -/
def execJumpOffset (nnn : Addr12) (s : State) : Result := .next (s.setPc (offsetTarget s nnn))

end Sys2Proof.Machine
end

