-- ==== Sys2Proof/Machine/Display.lean ====
section
/-! DEFINITION. The framebuffer controller (43_display.md R160 to R166). -/

namespace Sys2Proof.Machine

/-- clear-screen (R160). -/
def execClearScreen (s : State) : Result := .next (s.setFb Grid.blank)

/-- R161 after its read: `rows` are the sprite's bytes, under either sprite bit order; coordinates come from the
state before VF is written (R165). -/
def drawRows (o : Config.SpriteBitOrder) (x y : Nibble) (rows : List Byte) (s : State) : State :=
  let drawn := plot s.fb false (spriteCells o (s.getV x) (s.getV y) 0 rows)
  (s.setFb drawn.1).setV vf (flagByte drawn.2)

/-- draw (R161). -/
def execDraw (x y n : Nibble) (s : State) : Result :=
  match s.memRead (baseAddr s) n.toNat with
  | .error f => raise f
  | .ok rows => .next (drawRows Params.spriteBitOrder x y rows s)

/-- The row-major view of the grid (10_state.md R32, R166): cell (col, row) is element row × 64 + col. -/
def Grid.rowMajor (g : Grid) : List Bool := g.toList.flatMap Vector.toList

end Sys2Proof.Machine
end

