-- ==== Sys2Proof/Machine/IndexMemory.lean ====
section
/-! DEFINITION. Index register, BCD store, block store and load (42_index_memory.md R140 to R149). The memory instructions leave I as it is (R148; log 16). -/

namespace Sys2Proof.Machine

/-- set-index (R140). -/
def execSetIndex (nnn : Addr12) (s : State) : Result := .next (s.setI (zext16 nnn))

/-- add-index (R141): wraps at 16 bits, VF unchanged. -/
def execAddIndex (x : Nibble) (s : State) : Result := .next (s.setI (s.i + zext16 (s.getV x)))

/-- set-index-font (R142): V[x] whole, times GLYPH_BYTES (log 17). -/
def execSetIndexFont (x : Nibble) (s : State) : Result :=
  .next (s.setI (zext16 (s.getV x) * BitVec.ofNat 16 Config.glyphBytes))

/-- store-bcd (R145). -/
def execStoreBcd (x : Nibble) (s : State) : Result :=
  finish (s.memWrite Params.fontWritePolicy (baseAddr s) (bcd3 (s.getV x)))

/-- store-regs (R146). -/
def execStoreRegs (x : Nibble) (s : State) : Result :=
  finish (s.memWrite Params.fontWritePolicy (baseAddr s) (regBlock s x))

/-- load-regs (R147). -/
def execLoadRegs (x : Nibble) (s : State) : Result :=
  match s.memRead (baseAddr s) (blockLen x) with
  | .error f => raise f
  | .ok bytes => .next (s.setBlock bytes)

end Sys2Proof.Machine
end

