-- ==== Sys2Proof/Machine/KeysTimers.lean ====
section
/-! DEFINITION. Keypad and timer instructions (44_keys_timers.md R170 to R177). -/

namespace Sys2Proof.Machine

/-- The key a skip names: `V[x]`, or KeyIndex when it exceeds 15 (R172; log 7). -/
def keyOperand (s : State) (x : Nibble) : Except Fault (Fin 16) :=
  if h : (s.getV x).toNat < 16 then .ok ⟨(s.getV x).toNat, h⟩ else .error (.keyIndex (s.getV x))

/-- skip-if-key (R170). -/
def execSkipIfKey (x : Nibble) (s : State) : Result :=
  match keyOperand s x with
  | .error f => raise f
  | .ok k => .next (s.skipIf (s.key k))

/-- skip-if-not-key (R171). -/
def execSkipIfNotKey (x : Nibble) (s : State) : Result :=
  match keyOperand s x with
  | .error f => raise f
  | .ok k => .next (s.skipIf (!s.key k))

/-- wait-key (R173): with no key pressed, `pc` goes back to `pc0` and the cycle is a stall (R174). -/
def execWaitKey (x : Nibble) (s : State) : Result :=
  match s.lowestKey with
  | none => .next (s.setPc s.pc0)
  | some k => .next (s.setV x (BitVec.ofNat 8 k.val))

/-- read-delay (R175). -/
def execReadDelay (x : Nibble) (s : State) : Result := .next (s.setV x s.dt)

/-- set-delay (R176). -/
def execSetDelay (x : Nibble) (s : State) : Result := .next (s.setDT (s.getV x))

/-- set-sound (R177). -/
def execSetSound (x : Nibble) (s : State) : Result := .next (s.setST (s.getV x))

end Sys2Proof.Machine
end

