-- ==== Sys2Proof/Machine/Cycle.lean ====
section
/-! DEFINITION. The instruction cycle (30_encoding.md R79 to R85), the host commands (60_exceptions.md R215 to R225), and what each command returns to the host (R201, R220). -/

namespace Sys2Proof.Machine

/-! ### One cycle -/

/-- Fetch (R81): the big-endian word at `pc`, or MemoryRange at the lowest address outside the memory. -/
def fetchWord (s : State) : Except Fault Word :=
  match Memory.firstOutside s.pc.toNat Config.insnBytes with
  | some a => .error (.memoryRange a)
  | none => .ok (bigEndian (s.readByte s.pc.toNat) (s.readByte (s.pc.toNat + 1)))

/-- One cycle (R80): fetch, decode, then execute with `pc = pc0 + 2` in place. -/
def cycle (s : State) : Result :=
  match fetchWord s with
  | .error f => raise f
  | .ok w =>
    match decode w with
    | .error _ => raise (.decodeFault w s.pc)
    | .ok i => exec i s.advance

/-- The cycle's instruction is a wait-key that finds no key pressed: the cycle returns Stalled (R84, R174). -/
def stalls (s : State) : Bool :=
  match fetchWord s with
  | .error _ => false
  | .ok w =>
    match decode w with
    | .ok (.waitKey _) => s.lowestKey.isNone
    | _ => false

/-! ### The other host commands -/

/-- One timer's tick (R215): minus 1 if nonzero. -/
def tickDown (t : Byte) : Byte := if t = 0#8 then 0#8 else t - 1#8

/-- `tick_timers` (R215). -/
def tickTimers (s : State) : State := { s with dt := tickDown s.dt, st := tickDown s.st }

/-- `tick_timers` returns SoundEvent exactly when ST = 1 before the tick (R216). -/
def soundEdge (s : State) : Bool := s.st == 1#8

/-- `reset` and `init` (70_reset_and_hazards.md R240, R241): every field of the core at its reset value. The host's
coming commands and the random source are not the core's state and stay (log 19). -/
def resetCore (s : State) : State := { State.reset with script := s.script, draws := s.draws }

/-- `load(bytes)` (R221): the image from LOAD_BASE on, or LoadSize before any byte is copied (R208). -/
def loadImage (bytes : List Byte) (s : State) : Except CommandFault State :=
  if Config.maxImage < bytes.length then .error (.loadSize bytes.length)
  else .ok (s.setMem (Memory.writeBytes s.mem Config.loadBase bytes))

/-- `key_down(k)` and `key_up(k)` (R223), or KeyIdRange (R209). -/
def keyCommand (k : Nat) (b : Bool) (s : State) : Except CommandFault State :=
  if h : k < 16 then .ok (s.setKey ⟨k, h⟩ b) else .error (.keyIdRange k)

/-- The state after a command that may be refused: a refused one leaves it as it was (93_implementation_defined.md items
12 and 13). -/
def orUnchanged (s : State) : Except CommandFault State → State
  | .ok t => t
  | .error _ => s

/-- The effect of each command of R220. -/
def runCommand (c : HostCommand) (s : State) : Result :=
  match c with
  | .init => .next (resetCore s)
  | .reset => .next (resetCore s)
  | .load bytes => .next (orUnchanged s (loadImage bytes s))
  | .cycle => cycle s
  | .tickTimers => .next (tickTimers s)
  | .keyDown k => .next (orUnchanged s (keyCommand k true s))
  | .keyUp k => .next (orUnchanged s (keyCommand k false s))
  | .display => .next s

/-- The command the host gives now: the first of its script, or `cycle` when the script is empty (log 10). -/
def nextCommand (s : State) : HostCommand := s.script.headD .cycle

/-- The state in which that command runs: it has left the script. -/
def afterIssue (s : State) : State := { s with script := s.script.tail }

/-- One command of the host. -/
def hostStep (s : State) : Result := runCommand (nextCommand s) (afterIssue s)

/-! ### What a command returns -/

/-- The kinds of R201. -/
inductive FaultKind where
  | decodeFault
  | stackOverflow
  | stackUnderflow
  | memoryRange
  | fontWrite
  | keyIndex
  | loadSize
  | keyIdRange
  deriving DecidableEq, Repr

/-- The record of R201. -/
structure FaultRecord where
  kind : FaultKind
  code : Nat
  pc0 : Option Word
  word : Option Word
  info : Option Nat
  deriving DecidableEq, Repr

/-- What the host sees of a command (R84, R216, R220). -/
inductive HostReply where
  | ok
  | stalled
  | fault (r : FaultRecord)
  | soundEvent
  | noSound
  | grid (cells : List Bool)
  | done
  deriving DecidableEq, Repr

/-- The code of each kind (R201). -/
def FaultKind.code : FaultKind → Nat
  | .decodeFault => 1
  | .stackOverflow => 2
  | .stackUnderflow => 3
  | .memoryRange => 4
  | .fontWrite => 5
  | .keyIndex => 6
  | .loadSize => 7
  | .keyIdRange => 8

/-- The kind of a cycle's fault (R201). -/
def faultKind : Fault → FaultKind
  | .decodeFault _ _ => .decodeFault
  | .stackOverflow _ => .stackOverflow
  | .stackUnderflow _ => .stackUnderflow
  | .memoryRange _ => .memoryRange
  | .fontWrite _ => .fontWrite
  | .keyIndex _ => .keyIndex

/-- The info of a cycle's fault (R201). -/
def faultInfo : Fault → Option Nat
  | .decodeFault _ _ => none
  | .stackOverflow _ => none
  | .stackUnderflow _ => none
  | .memoryRange a => some a
  | .fontWrite a => some a
  | .keyIndex k => some k.toNat

/-- The record of a fault of a cycle from `s` (R201): `pc0` is the cycle's address, `word` what it fetched. -/
def cycleRecord (s : State) (f : Fault) : FaultRecord where
  kind := faultKind f
  code := (faultKind f).code
  pc0 := some s.pc
  word := match fetchWord s with
    | .ok w => some w
    | .error _ => none
  info := faultInfo f

/-- The kind of a refused command (R201). -/
def commandKind : CommandFault → FaultKind
  | .loadSize _ => .loadSize
  | .keyIdRange _ => .keyIdRange

/-- The info of a refused command (R201). -/
def commandInfo : CommandFault → Nat
  | .loadSize n => n
  | .keyIdRange k => k

/-- The record of a refused command: no address and no word (R201). -/
def commandRecord (f : CommandFault) : FaultRecord where
  kind := commandKind f
  code := (commandKind f).code
  pc0 := none
  word := none
  info := some (commandInfo f)

/-- What a cycle from `s` returns (R84). -/
def cycleReply (s : State) : HostReply :=
  match cycle s with
  | .next _ => if stalls s then .stalled else .ok
  | .fault f => .fault (cycleRecord s f)
  | .refused _ => .done

/-- What a load or key command returns: Ok or its fault (R220). -/
def commandReply : Except CommandFault State → HostReply
  | .ok _ => .ok
  | .error f => .fault (commandRecord f)

/-- What each command returns (R220). -/
def replyTo (c : HostCommand) (s : State) : HostReply :=
  match c with
  | .init => .done
  | .reset => .done
  | .load bytes => commandReply (loadImage bytes s)
  | .cycle => cycleReply s
  | .tickTimers => if soundEdge s then .soundEvent else .noSound
  | .keyDown k => commandReply (keyCommand k true s)
  | .keyUp k => commandReply (keyCommand k false s)
  | .display => .grid (Grid.rowMajor s.fb)

/-- What the step from `s` returns to the host. -/
def reply (s : State) : HostReply := replyTo (nextCommand s) (afterIssue s)

/-! ### Placing an instruction where the next step fetches -/

/-- The address the next cycle fetches at, or LOAD_BASE when no fetch can succeed at `pc` (log 11). -/
def placeAt (s : State) : Nat := if s.pc.toNat + 1 < Config.memSize then s.pc.toNat else Config.loadBase

/-- `s` with a word at the fetch address, and no host command before the next cycle (log 11). -/
def placeWord (s : State) (w : Word) : State :=
  { s with
    mem := Memory.writeBytes s.mem (placeAt s) (wordBytes w)
    pc := BitVec.ofNat 16 (placeAt s)
    script := [] }

end Sys2Proof.Machine
end

