-- ==== Sys2Proof/Machine/Step.lean ====
section
/-! DEFINITION. One step of the machine: the host's next command, which is a cycle unless State.script says otherwise. -/

namespace Sys2Proof.Machine

/-- One step: one atomic host command (00_scope.md R14; log 10). -/
def step (s : State) : Host.Outcome State Fault Refusal := hostStep s

/-- `s` with an instruction stored where the next step fetches it (log 11). -/
def State.withFetchWord (s : State) (nbits w : Nat) : State := placeWord s (tableWord nbits w)

end Sys2Proof.Machine
end

