-- ==== Sys2Proof/Safety.lean ====
section
/-! DEFINITION. The terms claims use: safe steps, the finished and the stalled core, the parts of the state, what stays the same in them and which instruction writes which, and the invariant. -/

namespace Sys2Proof.Machine

/-- The step answers a next state: no fault and no refusal. -/
def Safe (s : State) : Prop := ∃ t, step s = .next t

/-- 60_exceptions.md R227: a cycle from `s` returns Ok and leaves the state as it was. -/
def Finished (s : State) : Prop := cycle s = .next s ∧ stalls s = false

/-- The host calls `cycle` next and nothing else is waiting (log 10). -/
def HostQuiet (s : State) : Prop := s.script = []

/-- The word a cycle from `s` would fetch, and that the fetch succeeds (30_encoding.md R81). -/
def Fetches (s : State) (w : Word) : Prop :=
  s.pc.toNat + 1 < Config.memSize ∧ w = bigEndian (s.readByte s.pc.toNat) (s.readByte (s.pc.toNat + 1))

/-- The parts of the state (10_state.md R36), `host` for the model's own two fields. -/
inductive Part where
  | regs
  | pc
  | index
  | stack
  | delay
  | sound
  | keys
  | screen
  | memory
  | host
  deriving DecidableEq, Repr

/-- A part reads the same in two states. Memory is compared by reading every address. -/
def Same (p : Part) (s t : State) : Prop :=
  match p with
  | .regs => ∀ r, t.getV r = s.getV r
  | .pc => t.pc = s.pc
  | .index => t.i = s.i
  | .stack => t.sp = s.sp ∧ ∀ k : Fin 16, t.stack[k] = s.stack[k]
  | .delay => t.dt = s.dt
  | .sound => t.st = s.st
  | .keys => ∀ k, t.key k = s.key k
  | .screen => ∀ c, t.lit c = s.lit c
  | .memory => ∀ a, t.readByte a = s.readByte a
  | .host => t.script = s.script ∧ t.draws = s.draws

/-- Every part but the named ones reads the same. -/
def SameBut (changed : List Part) (s t : State) : Prop := ∀ p, p ∉ changed → Same p s t

/-- Every general register but the named ones reads the same. -/
def SameRegsBut (changed : List Nibble) (s t : State) : Prop := ∀ r, r ∉ changed → t.getV r = s.getV r

/-- The parts an instruction can write: the writes column of 10_state.md R22, with the instructions it leaves out (no-op,
clear-screen, return, jump, call, set-index) from their own rules. `host` is the draw count of random (log 9). -/
def writtenParts : Instr → List Part
  | .noOp _ => []
  | .clearScreen => [.screen]
  | .ret => [.pc, .stack]
  | .jump _ => [.pc]
  | .call _ => [.pc, .stack]
  | .skipEqImm _ _ => [.pc]
  | .skipNeImm _ _ => [.pc]
  | .skipEqReg _ _ => [.pc]
  | .setImm _ _ => [.regs]
  | .addImm _ _ => [.regs]
  | .setReg _ _ => [.regs]
  | .orReg _ _ => [.regs]
  | .andReg _ _ => [.regs]
  | .xorReg _ _ => [.regs]
  | .addReg _ _ => [.regs]
  | .subReg _ _ => [.regs]
  | .shiftRight _ => [.regs]
  | .subRegRev _ _ => [.regs]
  | .shiftLeft _ => [.regs]
  | .skipNeReg _ _ => [.pc]
  | .setIndex _ => [.index]
  | .jumpOffset _ => [.pc]
  | .random _ _ => [.regs, .host]
  | .draw _ _ _ => [.screen, .regs]
  | .skipIfKey _ => [.pc]
  | .skipIfNotKey _ => [.pc]
  | .readDelay _ => [.regs]
  | .waitKey _ => [.regs, .pc]
  | .setDelay _ => [.delay]
  | .setSound _ => [.sound]
  | .addIndex _ => [.index]
  | .setIndexFont _ => [.index]
  | .storeBcd _ => [.memory]
  | .storeRegs _ => [.memory]
  | .loadRegs _ => [.regs]

/-- The general registers an instruction can write (10_state.md R21, R22): its destination, VF, or the block V[0..x]. -/
def writesReg (r : Nibble) : Instr → Prop
  | .noOp _ => False
  | .clearScreen => False
  | .ret => False
  | .jump _ => False
  | .call _ => False
  | .skipEqImm _ _ => False
  | .skipNeImm _ _ => False
  | .skipEqReg _ _ => False
  | .setImm x _ => r = x
  | .addImm x _ => r = x
  | .setReg x _ => r = x
  | .orReg x _ => r = x
  | .andReg x _ => r = x
  | .xorReg x _ => r = x
  | .addReg x _ => r = x ∨ r = 15#4
  | .subReg x _ => r = x ∨ r = 15#4
  | .shiftRight x => r = x ∨ r = 15#4
  | .subRegRev x _ => r = x ∨ r = 15#4
  | .shiftLeft x => r = x ∨ r = 15#4
  | .skipNeReg _ _ => False
  | .setIndex _ => False
  | .jumpOffset _ => False
  | .random x _ => r = x
  | .draw _ _ _ => r = 15#4
  | .skipIfKey _ => False
  | .skipIfNotKey _ => False
  | .readDelay x => r = x
  | .waitKey x => r = x
  | .setDelay _ => False
  | .setSound _ => False
  | .addIndex _ => False
  | .setIndexFont _ => False
  | .storeBcd _ => False
  | .storeRegs _ => False
  | .loadRegs x => r.toNat ≤ x.toNat

/-- The sprite of `draw x y n` at `s` covers the cell: a set bit of one of its rows falls on it (R161 to R163, bit 7 at
column 0 by D24). -/
def SpriteCovers (s : State) (x y n : Nibble) (p : CellPos) : Prop :=
  ∃ r col : Nat, r < n.toNat ∧ col < 8 ∧ (s.readByte (baseAddr s + r)).getLsbD (7 - col) = true ∧
    p.1.val = ((s.getV y).toNat + r) % 32 ∧ p.2.val = ((s.getV x).toNat + col) % 64

/-- The outcome of a step with a function applied to its next state. -/
def mapNext (f : State → State) : Result → Result
  | .next t => .next (f t)
  | .fault e => .fault e
  | .refused e => .refused e

/-- The font table holds FONT_BYTES (20_memory.md R52, R53). -/
def FontIntact (s : State) : Prop := ∀ a, a < Config.fontSize → s.readByte a = Params.fontBytes[a]?.getD 0#8

/-- The invariant of the machine: memory is in its canonical form, the font is as reset left it (R58), `pc` is in the
range of 10_state.md R26, and every stack slot holds an address a call can push. -/
structure Inv (s : State) : Prop where
  memWf : Memory.wf s.mem
  font : FontIntact s
  pcRange : s.pc.toNat ≤ 0x10FE
  stackRange : ∀ k : Fin 16, s.stack[k].toNat ≤ 0x1000

end Sys2Proof.Machine
end

