-- ==== Sys2Proof/Certificates/Slice0/Obligations.lean ====
section
/-! DEFINITION. The statements for the provers. Each docstring names the rules of spec/ it formalises, or the spec's decision or the log entry it rests on. -/

open Sys2Proof Sys2Proof.Machine

/-! ### Encoding -/

/-- Decoding the word of a well-formed instruction gives that instruction back, every operand at every value.
Derived: the encodings of 32 of the 35 rows are the spec's own choice D26, the no-op space its choice D3. -/
def Obligations.DecodeOfEncodeGivesTheInstruction : Prop :=
  ∀ i : Instr, i.wf = true → decode (encode i) = .ok i

/-- A decoded instruction is well-formed and its word is the decoded one, but for the ignored `y` nibble of the two
shifts, which the encoder writes as 0 (log 27). Derived (D26, D3). -/
def Obligations.EncodeOfDecodeGivesTheWord : Prop :=
  ∀ (w : Word) (i : Instr), decode w = .ok i →
    i.wf = true ∧
    encode i = (match i with
      | .shiftRight _ => w &&& 0xFF0F#16
      | .shiftLeft _ => w &&& 0xFF0F#16
      | _ => w)

/-- R73 and R74: a decoded word matches the row of its instruction, and a word that matches a row of the table decodes
to an instruction of that row, but for 00E0 and 00EE, which match row 0nnn too and go to their own rows. Derived (D26). -/
def Obligations.DecoderFollowsTheOpcodeTable : Prop :=
  (∀ (w : Word) (i : Instr), decode w = .ok i → w &&& i.row.mask = i.row.pattern) ∧
  (∀ (w : Word) (j : Instr), w &&& j.row.mask = j.row.pattern →
    ∃ i, decode w = .ok i ∧
      (i.row = j.row ∨ (j.row = ⟨0xF000#16, 0x0000#16⟩ ∧ (w = 0x00E0#16 ∨ w = 0x00EE#16))))

/-- R77: every word either decodes or is rejected by name, and the rejected ones are exactly 5xyN and 9xyN with N ≠ 0,
8xyN with N in 8, 9, A, B, C, D, F, ExNN with NN not 9E or A1, FxNN with NN not one of nine values. Derived (D4, D26). -/
def Obligations.IllegalWordsAreTheListedOnes : Prop :=
  ∀ w : Word,
    ((∃ i, decode w = .ok i) ∨ decode w = .error (.illegalWord w)) ∧
    (decode w = .error (.illegalWord w) ↔
      (opOf w = 0x5#4 ∧ nOf w ≠ 0#4) ∨ (opOf w = 0x9#4 ∧ nOf w ≠ 0#4) ∨
      (opOf w = 0x8#4 ∧ nOf w ∈ [0x8#4, 0x9#4, 0xA#4, 0xB#4, 0xC#4, 0xD#4, 0xF#4]) ∨
      (opOf w = 0xE#4 ∧ nnOf w ∉ [0x9E#8, 0xA1#8]) ∨
      (opOf w = 0xF#4 ∧
        nnOf w ∉ [0x07#8, 0x0A#8, 0x15#8, 0x18#8, 0x1E#8, 0x29#8, 0x33#8, 0x55#8, 0x65#8]))

/-- The three words the source shows (30_encoding.md R73, column src, §8), and one word of each other family written
out from R73 (vectors D of 95_test_vectors.md). Derived: all but the first three are encodings by choice D26. -/
def Obligations.ExampleWordsDecode : Prop :=
  decode 0x00E0#16 = .ok .clearScreen ∧
  decode 0x1ABC#16 = .ok (.jump 0xABC#12) ∧
  decode 0x6A3F#16 = .ok (.setImm 0xA#4 0x3F#8) ∧
  decode 0x0123#16 = .ok (.noOp 0x123#12) ∧
  decode 0x00EE#16 = .ok .ret ∧
  decode 0x8127#16 = .ok (.subRegRev 1#4 2#4) ∧
  decode 0xD12F#16 = .ok (.draw 1#4 2#4 15#4) ∧
  decode 0xE1A1#16 = .ok (.skipIfNotKey 1#4) ∧
  decode 0xF118#16 = .ok (.setSound 1#4) ∧
  decode 0xF155#16 = .ok (.storeRegs 1#4)

/-- R72: the `y` nibble of a shift is ignored, not checked. Derived (the rule is the spec's inference). -/
def Obligations.ShiftsIgnoreTheYNibble : Prop :=
  ∀ x y : Nibble,
    decode (0x8#4 ++ x ++ y ++ 0x6#4) = .ok (.shiftRight x) ∧ decode (0x8#4 ++ x ++ y ++ 0xE#4) = .ok (.shiftLeft x)

/-- R76: `SYS_POLICY = zero_only` differs from `nop` exactly on the 0nnn words other than 0000, 00E0 and 00EE, which it
rejects. Derived (D3). -/
def Obligations.ZeroOnlyPolicyRejectsTheOtherNoOps : Prop :=
  ∀ w : Word,
    decodeWith .zeroOnly w =
      if opOf w = 0#4 ∧ w ≠ 0x0000#16 ∧ w ≠ 0x00E0#16 ∧ w ≠ 0x00EE#16 then .error (.illegalWord w)
      else decodeWith .nop w

/-! ### The cycle and the step -/

/-- A STEP RUNS THE DECODED INSTRUCTION. When the host's next command is a cycle (its script is empty or begins with
one, log 10) and the two bytes at `pc` decode to `i`, the step is `exec i` with `pc` advanced by 2 and the command gone
from the script. Derived: 30_encoding.md section 4 (R79 to R83) and log 10. -/
def Obligations.StepRunsTheDecodedInstruction : Prop :=
  ∀ (s : State) (w : Word) (i : Instr),
    (s.script = [] ∨ ∃ rest, s.script = .cycle :: rest) → Fetches s w → decode w = .ok i →
    step s = exec i { s with pc := s.pc + 2#16, script := s.script.tail }

/-- The step issues the host's commands in the order of the script, one a step, and a cycle when the script is empty.
Derived: 60_exceptions.md section 5 (R220, R226), in the form of log 10. -/
def Obligations.StepIssuesTheNextHostCommand : Prop :=
  ∀ s : State,
    (s.script = [] → step s = cycle s) ∧
    (∀ c rest, s.script = c :: rest → step s = runCommand c { s with script := rest })

/-- A word placed by withFetchWord is the word the next step fetches, the script is empty, and nothing but the two bytes,
`pc` when no fetch was possible there, and the script has changed. Derived: logs 10 and 11. -/
def Obligations.PlacedWordIsFetched : Prop :=
  ∀ (s : State) (w : Nat), w < 65536 →
    Fetches (s.withFetchWord 16 w) (BitVec.ofNat 16 w) ∧ (s.withFetchWord 16 w).script = [] ∧
    (s.withFetchWord 16 w).draws = s.draws ∧
    (s.pc.toNat < 4095 → (s.withFetchWord 16 w).pc = s.pc) ∧
    (4095 ≤ s.pc.toNat → (s.withFetchWord 16 w).pc = 0x200#16) ∧
    (∀ a, a ≠ (s.withFetchWord 16 w).pc.toNat → a ≠ (s.withFetchWord 16 w).pc.toNat + 1 →
      (s.withFetchWord 16 w).readByte a = s.readByte a) ∧
    SameBut [.pc, .memory, .host] s (s.withFetchWord 16 w)

/-- R81 and R82: a fetch reads two bytes, the first in the high half; it raises MemoryRange(pc) at or above 0x1000 and
MemoryRange(0x1000) at 0xFFF; `pc` is advanced by 2 before decode; an illegal word raises DecodeFault(w, pc0). -/
def Obligations.CycleFetchesAndDecodes : Prop :=
  ∀ s : State,
    (4096 ≤ s.pc.toNat → cycle s = .fault (.memoryRange s.pc.toNat)) ∧
    (s.pc.toNat = 4095 → cycle s = .fault (.memoryRange 4096)) ∧
    (s.pc.toNat < 4095 →
      ∃ w : Word, fetchWord s = .ok w ∧
        w.toNat = 256 * (s.readByte s.pc.toNat).toNat + (s.readByte (s.pc.toNat + 1)).toNat ∧
        (∀ i, decode w = .ok i → cycle s = exec i { s with pc := s.pc + 2#16 }) ∧
        (∀ e, decode w = .error e → cycle s = .fault (.decodeFault w s.pc)))

/-! ### Control transfer -/

/-- no-op: no state change, and a step on the word 0000, the no-op under both policies, only advances `pc`.
Derived: 40_control.md R100 rests on D3. -/
def Obligations.NoOpChangesNothing : Prop :=
  (∀ (nnn : Addr12) (s : State), exec (.noOp nnn) s = .next s) ∧
  (∀ s : State, s.script = [] → Fetches s 0x0000#16 → step s = .next { s with pc := s.pc + 2#16 })

/-- R100's corner: zeroed memory is slid through, two bytes a step. Derived (the spec's inference). -/
def Obligations.ZeroedMemoryIsSlidThrough : Prop :=
  ∀ (s : State) (k : Nat), s.script = [] → s.pc.toNat + 2 * k ≤ 4096 →
    (∀ a, s.pc.toNat ≤ a → a < s.pc.toNat + 2 * k → s.readByte a = 0#8) →
    Host.Core.run Sys2Proof.core k s = .next { s with pc := s.pc + BitVec.ofNat 16 (2 * k) }

/-- R103: jump. `pc` becomes nnn, nothing else changes. -/
def Obligations.JumpReplacesThePc : Prop :=
  ∀ (nnn : Addr12) (s : State), ∃ t, exec (.jump nnn) s = .next t ∧ t.pc.toNat = nnn.toNat ∧ SameBut [.pc] s t

/-- jump-offset: `pc` becomes V[0] + nnn, always register 0, never masked. Derived: that the sum is not masked is D12. -/
def Obligations.JumpOffsetAddsV0 : Prop :=
  ∀ (nnn : Addr12) (s : State),
    ∃ t, exec (.jumpOffset nnn) s = .next t ∧ t.pc.toNat = (s.getV 0#4).toNat + nnn.toNat ∧ SameBut [.pc] s t

/-- R105 to R108: the four skips add 2 to `pc` exactly when their condition holds, and change nothing else. -/
def Obligations.SkipsAdvanceOnTheirCondition : Prop :=
  ∀ (x y : Nibble) (nn : Byte) (s : State),
    (∃ t, exec (.skipEqImm x nn) s = .next t ∧ SameBut [.pc] s t ∧
      (s.getV x = nn → t.pc = s.pc + 2#16) ∧ (s.getV x ≠ nn → t.pc = s.pc)) ∧
    (∃ t, exec (.skipNeImm x nn) s = .next t ∧ SameBut [.pc] s t ∧
      (s.getV x ≠ nn → t.pc = s.pc + 2#16) ∧ (s.getV x = nn → t.pc = s.pc)) ∧
    (∃ t, exec (.skipEqReg x y) s = .next t ∧ SameBut [.pc] s t ∧
      (s.getV x = s.getV y → t.pc = s.pc + 2#16) ∧ (s.getV x ≠ s.getV y → t.pc = s.pc)) ∧
    (∃ t, exec (.skipNeReg x y) s = .next t ∧ SameBut [.pc] s t ∧
      (s.getV x ≠ s.getV y → t.pc = s.pc + 2#16) ∧ (s.getV x = s.getV y → t.pc = s.pc))

/-- R104 and R203: call pushes `pc` (already pc0 + 2) into the slot at SP and goes to nnn; with SP = 16 it raises
StackOverflow(pc0). Derived: that the value goes into the slot at SP before SP goes up is D31 (log 23). -/
def Obligations.CallPushesTheReturnAddress : Prop :=
  ∀ (nnn : Addr12) (s : State),
    (s.sp.val < 16 → ∃ t, exec (.call nnn) s = .next t ∧ t.sp.val = s.sp.val + 1 ∧
      (∀ k : Fin 16, t.stack[k] = if k.val = s.sp.val then s.pc else s.stack[k]) ∧
      t.pc.toNat = nnn.toNat ∧ SameBut [.pc, .stack] s t) ∧
    (s.sp.val = 16 → exec (.call nnn) s = .fault (.stackOverflow (s.pc - 2#16)))

/-- R102 and R204: return pops the slot below SP into `pc` and keeps every slot; with SP = 0 it raises
StackUnderflow(pc0). -/
def Obligations.ReturnPopsIntoThePc : Prop :=
  ∀ s : State,
    (0 < s.sp.val → ∃ t, exec .ret s = .next t ∧ t.sp.val + 1 = s.sp.val ∧
      (∀ k : Fin 16, t.stack[k] = s.stack[k]) ∧
      (∀ k : Fin 16, k.val + 1 = s.sp.val → t.pc = s.stack[k]) ∧ SameBut [.pc, .stack] s t) ∧
    (s.sp.val = 0 → exec .ret s = .fault (.stackUnderflow (s.pc - 2#16)))

/-- A call followed at once by a return (executed after its own fetch advance) continues after the call: `pc` and SP
are those of the call's execute, and nothing but the dead stack slot at SP differs. Derived: 90_conflicts.md C3, D31 (log 23). -/
def Obligations.CallThenReturnContinuesAfterTheCall : Prop :=
  ∀ (nnn : Addr12) (s : State), s.sp.val < 16 →
    ∃ t u, exec (.call nnn) s = .next t ∧ exec .ret t.advance = .next u ∧
      u.pc = s.pc ∧ u.sp = s.sp ∧ (∀ k : Fin 16, k.val ≠ s.sp.val → u.stack[k] = s.stack[k]) ∧
      SameBut [.stack] s u

/-! ### Register arithmetic and logic -/

/-- R121, R122, R123: set-imm, add-imm and set-reg give V[x] its value and change nothing else, VF included unless
x = 15. -/
def Obligations.SetAndAddImmWriteOneRegister : Prop :=
  ∀ (x y : Nibble) (nn : Byte) (s : State),
    (∃ t, exec (.setImm x nn) s = .next t ∧ t.getV x = nn ∧ SameRegsBut [x] s t ∧ SameBut [.regs] s t) ∧
    (∃ t, exec (.addImm x nn) s = .next t ∧ (t.getV x).toNat = ((s.getV x).toNat + nn.toNat) % 256 ∧
      SameRegsBut [x] s t ∧ SameBut [.regs] s t) ∧
    (∃ t, exec (.setReg x y) s = .next t ∧ t.getV x = s.getV y ∧ SameRegsBut [x] s t ∧ SameBut [.regs] s t)

/-- or, and, xor: each bit of V[x] is the operation on the bits of V[x] and V[y]; nothing else changes.
Derived: that VF is not reset is D33. -/
def Obligations.LogicWorksBitwiseAndKeepsVF : Prop :=
  ∀ (x y : Nibble) (s : State),
    (∃ t, exec (.orReg x y) s = .next t ∧
      (∀ b, (t.getV x).getLsbD b = ((s.getV x).getLsbD b || (s.getV y).getLsbD b)) ∧
      SameRegsBut [x] s t ∧ SameBut [.regs] s t) ∧
    (∃ t, exec (.andReg x y) s = .next t ∧
      (∀ b, (t.getV x).getLsbD b = ((s.getV x).getLsbD b && (s.getV y).getLsbD b)) ∧
      SameRegsBut [x] s t ∧ SameBut [.regs] s t) ∧
    (∃ t, exec (.xorReg x y) s = .next t ∧
      (∀ b, (t.getV x).getLsbD b = ((s.getV x).getLsbD b ^^ (s.getV y).getLsbD b)) ∧
      SameRegsBut [x] s t ∧ SameBut [.regs] s t)

/-- R127 to R131: the five flag instructions write, through WriteRF of R133, the result and the flag that integer
arithmetic on the old operands gives. -/
def Obligations.FlagInstructionsWriteResultAndFlag : Prop :=
  ∀ (x y : Nibble) (s : State) (a b : Nat), a = (s.getV x).toNat → b = (s.getV y).toNat →
    exec (.addReg x y) s =
      .next (writeRF Params.vfDestOrder x (BitVec.ofNat 8 (a + b)) (decide (a + b > 255)) s) ∧
    exec (.subReg x y) s =
      .next (writeRF Params.vfDestOrder x (BitVec.ofNat 8 (a + 256 - b)) (decide (b ≤ a)) s) ∧
    exec (.subRegRev x y) s =
      .next (writeRF Params.vfDestOrder x (BitVec.ofNat 8 (b + 256 - a)) (decide (a ≤ b)) s) ∧
    exec (.shiftRight x) s = .next (writeRF Params.vfDestOrder x (BitVec.ofNat 8 (a / 2)) (decide (a % 2 = 1)) s) ∧
    exec (.shiftLeft x) s = .next (writeRF Params.vfDestOrder x (BitVec.ofNat 8 (a * 2)) (decide (128 ≤ a)) s)

/-- R133: WriteRF. With x ≠ 15 both orders leave the same state, V[x] the result and VF the flag; with x = 15, VF is the
flag under flag_last and the result under result_last; nothing else changes. Derived: the two orders are D5. -/
def Obligations.WriteRFOrdersDifferOnlyAtVF : Prop :=
  ∀ (x : Nibble) (res : Byte) (f : Bool) (s : State),
    (x ≠ 15#4 → writeRF .flagLast x res f s = writeRF .resultLast x res f s ∧
      (writeRF .flagLast x res f s).getV x = res ∧
      (writeRF .flagLast x res f s).getV 15#4 = if f then 1#8 else 0#8) ∧
    (x = 15#4 → ((writeRF .flagLast x res f s).getV 15#4 = if f then 1#8 else 0#8) ∧
      (writeRF .resultLast x res f s).getV 15#4 = res) ∧
    (∀ o, SameRegsBut [x, 15#4] s (writeRF o x res f s) ∧ SameBut [.regs] s (writeRF o x res f s))

/-- The five flag instructions as software sees them on this hardware: VF is the flag for every x, V[x] the result
unless x = 15, nothing else changes. Derived: VF at x = 15 is the spec's choice D5 (log 4). -/
def Obligations.FlagInstructionsOnThisHardware : Prop :=
  ∀ (x y : Nibble) (s : State) (a b : Nat), a = (s.getV x).toNat → b = (s.getV y).toNat →
    (∃ t, exec (.addReg x y) s = .next t ∧ (t.getV 15#4).toNat = (a + b) / 256 ∧
      (x ≠ 15#4 → (t.getV x).toNat = (a + b) % 256) ∧ SameRegsBut [x, 15#4] s t ∧ SameBut [.regs] s t) ∧
    (∃ t, exec (.subReg x y) s = .next t ∧ (t.getV 15#4).toNat = (a + 256 - b) / 256 ∧
      (x ≠ 15#4 → (t.getV x).toNat = (a + 256 - b) % 256) ∧ SameRegsBut [x, 15#4] s t ∧ SameBut [.regs] s t) ∧
    (∃ t, exec (.subRegRev x y) s = .next t ∧ (t.getV 15#4).toNat = (b + 256 - a) / 256 ∧
      (x ≠ 15#4 → (t.getV x).toNat = (b + 256 - a) % 256) ∧ SameRegsBut [x, 15#4] s t ∧ SameBut [.regs] s t) ∧
    (∃ t, exec (.shiftRight x) s = .next t ∧ (t.getV 15#4).toNat = a % 2 ∧
      (x ≠ 15#4 → (t.getV x).toNat = a / 2) ∧ SameRegsBut [x, 15#4] s t ∧ SameBut [.regs] s t) ∧
    (∃ t, exec (.shiftLeft x) s = .next t ∧ (t.getV 15#4).toNat = a / 128 ∧
      (x ≠ 15#4 → (t.getV x).toNat = 2 * a % 256) ∧ SameRegsBut [x, 15#4] s t ∧ SameBut [.regs] s t)

/-- R132: random writes r AND nn, for every random byte r; the byte this cycle receives is `draw8`, and the next draw is
a fresh one. Derived: the source of the byte and the count of draws, the model's own field, are D15 and log 9. -/
def Obligations.RandomWritesTheMaskedDraw : Prop :=
  ∀ (x : Nibble) (nn : Byte) (s : State),
    (∀ r : Byte, ∃ t, randomWith r x nn s = .next t ∧ t.getV x = r &&& nn ∧ SameRegsBut [x] s t ∧ SameBut [.regs] s t) ∧
    (∃ t, exec (.random x nn) s = .next t ∧ t.getV x = s.draw8 &&& nn ∧ SameRegsBut [x] s t ∧
      SameBut [.regs, .host] s t ∧ t.script = s.script ∧ t.draws = s.draws + 1)

/-! ### Index register and memory instructions -/

/-- R140: set-index. -/
def Obligations.SetIndexWritesTheAddress : Prop :=
  ∀ (nnn : Addr12) (s : State), ∃ t, exec (.setIndex nnn) s = .next t ∧ t.i.toNat = nnn.toNat ∧ SameBut [.index] s t

/-- add-index wraps at 16 bits and sets no flag; set-index-font takes V[x] whole, times 5. Derived: the width of the
wrap is R141's inference, the whole V[x] is D29. -/
def Obligations.AddIndexAndFontIndexWriteOnlyI : Prop :=
  ∀ (x : Nibble) (s : State),
    (∃ t, exec (.addIndex x) s = .next t ∧ t.i.toNat = (s.i.toNat + (s.getV x).toNat) % 65536 ∧ SameBut [.index] s t) ∧
    (∃ t, exec (.setIndexFont x) s = .next t ∧ t.i.toNat = 5 * (s.getV x).toNat ∧ SameBut [.index] s t)

/-- R144: the double-dabble converter gives the three decimal digits of every byte, most significant first. -/
def Obligations.DigitConverterGivesDecimalDigits : Prop :=
  ∀ v : Byte, (bcd3 v).map BitVec.toNat = [v.toNat / 100, v.toNat / 10 % 10, v.toNat % 10]

/-- store-bcd: with I in 0x050..0xFFD the three decimal digits of V[x] go to I, I+1, I+2, every other byte and
everything else stays; above, MemoryRange at the lowest address outside; below, FontWrite(I). Derived: D6, D12, D30. -/
def Obligations.StoreBcdStoresThreeDigits : Prop :=
  ∀ (x : Nibble) (s : State),
    (80 ≤ baseAddr s → baseAddr s ≤ 4093 → ∃ t, exec (.storeBcd x) s = .next t ∧
      (t.readByte (baseAddr s)).toNat = (s.getV x).toNat / 100 ∧
      (t.readByte (baseAddr s + 1)).toNat = (s.getV x).toNat / 10 % 10 ∧
      (t.readByte (baseAddr s + 2)).toNat = (s.getV x).toNat % 10 ∧
      (∀ a, (a < baseAddr s ∨ baseAddr s + 3 ≤ a) → t.readByte a = s.readByte a) ∧ SameBut [.memory] s t) ∧
    (4094 ≤ baseAddr s → exec (.storeBcd x) s = .fault (.memoryRange (max (baseAddr s) 4096))) ∧
    (baseAddr s < 80 → exec (.storeBcd x) s = .fault (.fontWrite (baseAddr s)))

/-- store-regs: with I at or above 0x050 and I + x inside the memory, V[k] goes to I + k for k = 0..x, every other byte
and everything else stays; else MemoryRange or FontWrite as for store-bcd. Derived: D6, D12, D30. -/
def Obligations.StoreRegsStoresTheBlock : Prop :=
  ∀ (x : Nibble) (s : State),
    (80 ≤ baseAddr s → baseAddr s + x.toNat < 4096 → ∃ t, exec (.storeRegs x) s = .next t ∧
      (∀ k : Nibble, k.toNat ≤ x.toNat → t.readByte (baseAddr s + k.toNat) = s.getV k) ∧
      (∀ a, (a < baseAddr s ∨ baseAddr s + x.toNat < a) → t.readByte a = s.readByte a) ∧ SameBut [.memory] s t) ∧
    (4096 ≤ baseAddr s + x.toNat → exec (.storeRegs x) s = .fault (.memoryRange (max (baseAddr s) 4096))) ∧
    (baseAddr s < 80 → exec (.storeRegs x) s = .fault (.fontWrite (baseAddr s)))

/-- load-regs: with I + x inside the memory, V[k] is the byte at I + k for k = 0..x, every other register and
everything else stays; else MemoryRange. Derived: D12, D30. -/
def Obligations.LoadRegsLoadsTheBlock : Prop :=
  ∀ (x : Nibble) (s : State),
    (baseAddr s + x.toNat < 4096 → ∃ t, exec (.loadRegs x) s = .next t ∧
      (∀ k : Nibble, k.toNat ≤ x.toNat → t.getV k = s.readByte (baseAddr s + k.toNat)) ∧
      (∀ k : Nibble, x.toNat < k.toNat → t.getV k = s.getV k) ∧ SameBut [.regs] s t) ∧
    (4096 ≤ baseAddr s + x.toNat → exec (.loadRegs x) s = .fault (.memoryRange (max (baseAddr s) 4096)))

/-- R64: bytes a store-regs wrote are the word a later fetch at their address reads. Derived (the spec's inference). -/
def Obligations.StoredWordIsFetched : Prop :=
  ∀ (x k : Nibble) (s t : State) (target : Word), k.toNat < x.toNat → exec (.storeRegs x) s = .next t →
    target.toNat = baseAddr s + k.toNat → Fetches (t.setPc target) (bigEndian (s.getV k) (s.getV (k + 1#4)))

/-- MemWrite under the two other font policies of R58: `write` stores every byte; `ignore` stores every byte outside
the font and leaves the font; both fault on the range alone. Derived (D6, D8). -/
def Obligations.OtherFontPoliciesWriteOrSkip : Prop :=
  ∀ (s : State) (addr : Nat) (bytes : List Byte),
    (addr + bytes.length ≤ 4096 →
      (∃ t, s.memWrite .write addr bytes = .ok t ∧ SameBut [.memory] s t ∧
        (∀ a, t.readByte a = if addr ≤ a then bytes[a - addr]?.getD (s.readByte a) else s.readByte a)) ∧
      (∃ t, s.memWrite .ignore addr bytes = .ok t ∧ SameBut [.memory] s t ∧
        (∀ a, t.readByte a =
          if addr ≤ a ∧ 80 ≤ a then bytes[a - addr]?.getD (s.readByte a) else s.readByte a))) ∧
    (4096 < addr + bytes.length → bytes ≠ [] →
      ∀ p, s.memWrite p addr bytes = .error (.memoryRange (max addr 4096)))

/-- The canonical form: two memories in it that read the same everywhere are the same list (log 20). Derived. -/
def Obligations.CanonicalMemoriesAreEqual : Prop :=
  ∀ m m' : List Host.Cell, Memory.wf m → Memory.wf m' → (∀ a, Memory.read m a = Memory.read m' a) → m = m'

/-! ### Display -/

/-- R160: clear-screen turns every cell off and changes nothing else. -/
def Obligations.ClearScreenUnlightsEveryCell : Prop :=
  ∀ s : State, ∃ t, exec .clearScreen s = .next t ∧ (∀ p, t.lit p = false) ∧ SameBut [.screen] s t

/-- draw: with its rows inside the memory (or n = 0) it toggles exactly the cells the sprite covers, VF is 1 if one of
them was lit and else 0, and nothing else changes; with a row outside it raises MemoryRange. Derived: D12, D24, D30. -/
def Obligations.DrawTogglesTheCoveredCells : Prop :=
  ∀ (x y n : Nibble) (s : State),
    ((baseAddr s + n.toNat ≤ 4096 ∨ n = 0#4) → ∃ t, exec (.draw x y n) s = .next t ∧
      (∀ p, SpriteCovers s x y n p → t.lit p = !s.lit p) ∧
      (∀ p, ¬ SpriteCovers s x y n p → t.lit p = s.lit p) ∧
      ((∃ p, SpriteCovers s x y n p ∧ s.lit p = true) → t.getV 15#4 = 1#8) ∧
      ((∀ p, SpriteCovers s x y n p → s.lit p = false) → t.getV 15#4 = 0#8) ∧
      SameRegsBut [15#4] s t ∧ SameBut [.regs, .screen] s t) ∧
    (4096 < baseAddr s + n.toNat → n ≠ 0#4 →
      exec (.draw x y n) s = .fault (.memoryRange (max (baseAddr s) 4096)))

/-- Drawing the same sprite twice gives the screen back, and the second draw reports a collision exactly when the first
one lit a cell. Derived: R164's example made general (D24). -/
def Obligations.DrawingTwiceRestoresTheScreen : Prop :=
  ∀ (x y n : Nibble) (s t u : State), x ≠ 15#4 → y ≠ 15#4 →
    exec (.draw x y n) s = .next t → exec (.draw x y n) t = .next u →
    (∀ p, u.lit p = s.lit p) ∧
    (u.getV 15#4 = 1#8 ↔ ∃ p, SpriteCovers s x y n p ∧ s.lit p = false)

/-! ### Keypad and timers -/

/-- skip-if-key and skip-if-not-key: with V[x] at most 15, `pc` advances by 2 exactly when that key is (is not) pressed;
above 15 they raise KeyIndex(V[x]). Derived: D7. -/
def Obligations.KeySkipsReadTheNamedKey : Prop :=
  ∀ (x : Nibble) (s : State),
    (∀ k : Fin 16, (s.getV x).toNat = k.val →
      (∃ t, exec (.skipIfKey x) s = .next t ∧ t.pc = (if s.key k then s.pc + 2#16 else s.pc) ∧ SameBut [.pc] s t) ∧
      (∃ t, exec (.skipIfNotKey x) s = .next t ∧ t.pc = (if s.key k then s.pc else s.pc + 2#16) ∧
        SameBut [.pc] s t)) ∧
    (15 < (s.getV x).toNat → exec (.skipIfKey x) s = .fault (.keyIndex (s.getV x)) ∧
      exec (.skipIfNotKey x) s = .fault (.keyIndex (s.getV x)))

/-- wait-key with a key pressed: V[x] is the lowest pressed key, nothing else changes; with none, `pc` goes back by 2
and nothing else changes. Derived: that a key already held counts is D32. -/
def Obligations.WaitKeyTakesTheLowestKey : Prop :=
  ∀ (x : Nibble) (s : State),
    (∀ k : Fin 16, s.key k = true → (∀ j : Fin 16, j < k → s.key j = false) →
      ∃ t, exec (.waitKey x) s = .next t ∧ (t.getV x).toNat = k.val ∧ SameRegsBut [x] s t ∧ SameBut [.regs] s t) ∧
    ((∀ k, s.key k = false) → ∃ t, exec (.waitKey x) s = .next t ∧ t.pc = s.pc - 2#16 ∧ SameBut [.pc] s t)

/-- R174: a cycle on a wait-key with no key pressed returns Stalled and leaves the state as it was, however often the
host calls it; once the host has pressed a key, the next cycle consumes the instruction, returns Ok and advances.
Derived: the run is that of a host whose script is empty, so it calls cycle alone (log 10); that a stall is a next state
with the reply Stalled is D18 (log 12). -/
def Obligations.WaitKeyStallsUntilAKeyIsPressed : Prop :=
  ∀ (s : State) (w : Word) (x : Nibble), s.script = [] → Fetches s w → decode w = .ok (.waitKey x) →
    (∀ k, s.key k = false) →
    cycle s = .next s ∧ cycleReply s = .stalled ∧ (∀ n, Host.Core.run Sys2Proof.core n s = .next s) ∧
    (∀ k : Fin 16, ∃ t u, runCommand (.keyDown k.val) s = .next t ∧ cycle t = .next u ∧ cycleReply t = .ok ∧
      (u.getV x).toNat = k.val ∧ u.pc = s.pc + 2#16)

/-- R175, R176, R177: read-delay, set-delay and set-sound move one byte; set-sound arms the sound edge of the next tick
exactly when it wrote 1. -/
def Obligations.TimerInstructionsMoveOneByte : Prop :=
  ∀ (x : Nibble) (s : State),
    (∃ t, exec (.readDelay x) s = .next t ∧ t.getV x = s.dt ∧ SameRegsBut [x] s t ∧ SameBut [.regs] s t) ∧
    (∃ t, exec (.setDelay x) s = .next t ∧ t.dt = s.getV x ∧ SameBut [.delay] s t) ∧
    (∃ t, exec (.setSound x) s = .next t ∧ t.st = s.getV x ∧ SameBut [.sound] s t ∧
      (replyTo .tickTimers t = .soundEvent ↔ s.getV x = 1#8))

/-! ### Host commands -/

/-- R215 and R216: a tick takes 1 from each nonzero timer, changes nothing else, never faults, and returns SoundEvent
exactly when ST was 1. -/
def Obligations.TickDecrementsTheTimers : Prop :=
  ∀ s : State,
    ∃ t, runCommand .tickTimers s = .next t ∧ t.dt.toNat = s.dt.toNat - 1 ∧ t.st.toNat = s.st.toNat - 1 ∧
      SameBut [.delay, .sound] s t ∧
      (s.st.toNat = 1 → replyTo .tickTimers s = .soundEvent) ∧ (s.st.toNat ≠ 1 → replyTo .tickTimers s = .noSound)

/-- load: an image of at most 3584 bytes goes to 0x200 on and nothing else changes; a longer one is refused, and not a
byte is copied. Derived: that nothing else changes is D20, that the run goes on is log 22. -/
def Obligations.LoadCopiesTheImage : Prop :=
  ∀ (bytes : List Byte) (s : State),
    (bytes.length ≤ 3584 → ∃ t, runCommand (.load bytes) s = .next t ∧ SameBut [.memory] s t ∧
      (∀ k, k < bytes.length → bytes[k]? = some (t.readByte (0x200 + k))) ∧
      (∀ a, (a < 0x200 ∨ 0x200 + bytes.length ≤ a) → t.readByte a = s.readByte a)) ∧
    (3584 < bytes.length → runCommand (.load bytes) s = .next s)

/-- key_down and key_up: they set and clear one key, twice is as once, and above 15 they are refused and change nothing.
Derived: the refusal above 15 is D19, that the run goes on is log 22. -/
def Obligations.KeyCommandsSetOneKey : Prop :=
  ∀ s : State,
    (∀ k : Fin 16, ∃ t u, runCommand (.keyDown k.val) s = .next t ∧ runCommand (.keyUp k.val) s = .next u ∧
      (∀ j, t.key j = if j = k then true else s.key j) ∧ (∀ j, u.key j = if j = k then false else s.key j) ∧
      SameBut [.keys] s t ∧ SameBut [.keys] s u ∧
      runCommand (.keyDown k.val) t = .next t ∧ runCommand (.keyUp k.val) u = .next u) ∧
    (∀ k, 15 < k → runCommand (.keyDown k) s = .next s ∧ runCommand (.keyUp k) s = .next s)

/-- R241: reset and init never fault, and after either every part of the core is as State.reset has it, whatever came
before. -/
def Obligations.ResetRestoresTheInitState : Prop :=
  ∀ s : State, ∃ t, runCommand .reset s = .next t ∧ runCommand .init s = .next t ∧ SameBut [.host] State.reset t

/-- R240: init never faults and produces State.reset, in which memory is zero but for FONT_BYTES at 0x000..0x04F, `pc`
is 0x200, and every register, I, stack slot, SP, timer, key and framebuffer cell is zero, unpressed or unlit.
Derived: the values of FONT_BYTES are D25 (log 1). -/
def Obligations.InitStateValues : Prop :=
  (∀ s : State, ∃ t, runCommand .init s = .next t ∧ SameBut [.host] State.reset t) ∧
  (∀ a, a < 80 → Params.fontBytes[a]? = some (State.reset.readByte a)) ∧
  (∀ a, 80 ≤ a → State.reset.readByte a = 0#8) ∧
  State.reset.pc = 0x200#16 ∧ (∀ r, State.reset.getV r = 0#8) ∧ State.reset.i = 0#16 ∧
  (∀ k : Fin 16, State.reset.stack[k] = 0#16) ∧ State.reset.sp = 0 ∧ State.reset.dt = 0#8 ∧ State.reset.st = 0#8 ∧
  (∀ k, State.reset.key k = false) ∧ (∀ p, State.reset.lit p = false)

/-- R225: display returns the 2048 cells in row-major order and changes nothing. -/
def Obligations.DisplayReturnsTheGridRowMajor : Prop :=
  ∀ s : State, runCommand .display s = .next s ∧
    ∃ cells : List Bool, replyTo .display s = .grid cells ∧ cells.length = 2048 ∧
      ∀ (row : Fin 32) (col : Fin 64), cells[row.val * 64 + col.val]? = some (s.lit (row, col))

/-! ### The whole machine -/

/-- Every step, of a cycle and of every host command, keeps the invariant: memory canonical, the font intact, `pc`
within R26's range, stack slots pushable addresses. Derived: R26, R29, R58 (D6), log 20. -/
def Obligations.EveryStepKeepsTheInvariant : Prop :=
  ∀ s t : State, Inv s → step s = .next t → Inv t

/-- The state after reset meets the invariant. Derived. -/
def Obligations.ResetMeetsTheInvariant : Prop := Inv State.reset

/-- R22: what each instruction can change: the parts of its row, of the general registers those of its row, of memory
the bytes its store addresses, and nothing else; wait-key changes V[x] or `pc`, never both. Derived: the table is the
spec's own reading of the transition table, the draw count is log 9. -/
def Obligations.InstructionsChangeOnlyTheirParts : Prop :=
  ∀ (i : Instr) (s t : State), exec i s = .next t →
    SameBut (writtenParts i) s t ∧
    (∀ r, ¬ writesReg r i → t.getV r = s.getV r) ∧
    (∀ a, t.readByte a ≠ s.readByte a →
      (∃ x, i = .storeBcd x ∧ baseAddr s ≤ a ∧ a ≤ baseAddr s + 2) ∨
      (∃ x, i = .storeRegs x ∧ baseAddr s ≤ a ∧ a ≤ baseAddr s + x.toNat)) ∧
    (∀ x, i = .waitKey x → Same .regs s t ∨ Same .pc s t) ∧
    t.script = s.script ∧
    (t.draws = s.draws ∨ ∃ x nn, i = .random x nn)

/-- R85: a cycle writes DT or ST only by executing set-delay or set-sound. -/
def Obligations.CycleNeverTicks : Prop :=
  ∀ s t : State, cycle s = .next t → t.dt ≠ s.dt ∨ t.st ≠ s.st →
    ∃ w x, Fetches s w ∧ (decode w = .ok (.setDelay x) ∨ decode w = .ok (.setSound x))

/-- R21: VF is written as a side effect by add-reg, sub-reg, shift-right, sub-reg-rev, shift-left and draw alone; any
other instruction that changes it names it as its destination or loads it in the block V[0..15]; it resets to 0.
Derived: that or, and, xor name no flag is D33. -/
def Obligations.VFChangesOnlyWhereNamed : Prop :=
  State.reset.getV 15#4 = 0#8 ∧
  ∀ (i : Instr) (s t : State), exec i s = .next t → t.getV 15#4 ≠ s.getV 15#4 →
    (∃ x y, i = .addReg x y ∨ i = .subReg x y ∨ i = .subRegRev x y) ∨ (∃ x, i = .shiftRight x ∨ i = .shiftLeft x) ∨
    (∃ x y n, i = .draw x y n) ∨
    (∃ nn, i = .setImm 15#4 nn ∨ i = .addImm 15#4 nn ∨ i = .random 15#4 nn) ∨
    (∃ y, i = .setReg 15#4 y ∨ i = .orReg 15#4 y ∨ i = .andReg 15#4 y ∨ i = .xorReg 15#4 y) ∨
    i = .readDelay 15#4 ∨ i = .waitKey 15#4 ∨ i = .loadRegs 15#4

/-- Every instruction completes or raises a fault of R201's table under that fault's own condition; none is refused.
Derived: FontWrite and KeyIndex are the spec's choices D6 and D7, the order of the checks is D9. -/
def Obligations.InstructionsFaultOnlyAsListed : Prop :=
  ∀ (i : Instr) (s : State),
    (∃ t, exec i s = .next t) ∨
    (∃ nnn, i = .call nnn ∧ s.sp.val = 16 ∧ exec i s = .fault (.stackOverflow (s.pc - 2#16))) ∨
    (i = .ret ∧ s.sp.val = 0 ∧ exec i s = .fault (.stackUnderflow (s.pc - 2#16))) ∨
    (∃ x, (i = .skipIfKey x ∨ i = .skipIfNotKey x) ∧ 15 < (s.getV x).toNat ∧
      exec i s = .fault (.keyIndex (s.getV x))) ∨
    (∃ n : Nat, ((∃ x y k, i = .draw x y k ∧ n = k.toNat) ∨ (∃ x, i = .storeBcd x ∧ n = 3) ∨
        (∃ x, (i = .storeRegs x ∨ i = .loadRegs x) ∧ n = x.toNat + 1)) ∧
      0 < n ∧ 4096 < baseAddr s + n ∧ exec i s = .fault (.memoryRange (max (baseAddr s) 4096))) ∨
    (∃ x, (i = .storeBcd x ∨ i = .storeRegs x) ∧ baseAddr s < 80 ∧ exec i s = .fault (.fontWrite (baseAddr s)))

/-- No instruction ever changes a byte of 0x000..0x04F. Derived: R58 under FONT_WRITE_POLICY = fault (D6). -/
def Obligations.NoInstructionChangesTheFont : Prop :=
  ∀ (i : Instr) (s t : State), exec i s = .next t → ∀ a, a < 80 → t.readByte a = s.readByte a

/-- R224: only random reads the random byte: any other instruction does the same whatever the source's draws are.
Derived (D15; log 9). -/
def Obligations.OnlyRandomReadsTheRandomSource : Prop :=
  ∀ (i : Instr) (s : State) (d : Nat), (∀ x nn, i ≠ .random x nn) →
    exec i { s with draws := d } = mapNext (fun t => { t with draws := d }) (exec i s)

/-- R30: ST can't be read by any instruction: two states that differ in ST alone go to states that differ in ST at
most. Derived: 10_state.md section 5. -/
def Obligations.NoInstructionReadsTheSoundTimer : Prop :=
  ∀ (i : Instr) (s : State) (v : Byte),
    ∃ v', exec i { s with st := v } = mapNext (fun t => { t with st := v' }) (exec i s)

/-- R227: a cycle returns Ok and leaves the state as it was exactly when the instruction at `pc` is a jump or a
jump-offset to `pc` itself. Derived (D17). -/
def Obligations.FinishedExactlyAtASelfJump : Prop :=
  ∀ s : State, Finished s ↔
    ∃ w, Fetches s w ∧
      ((∃ nnn : Addr12, decode w = .ok (.jump nnn) ∧ nnn.toNat = s.pc.toNat) ∨
       (∃ nnn : Addr12, decode w = .ok (.jumpOffset nnn) ∧ (s.getV 0#4).toNat + nnn.toNat = s.pc.toNat))

/-- R201 and R220: the record of a faulting cycle names the address of the instruction, the word exactly when the fetch
succeeded, and the kind, code and info of the table; a load, key_down or key_up returns Ok, or the record of its kind
without address and word. Derived: the codes are D10, KeyIdRange is D19. -/
def Obligations.FaultRecordNamesWordAndAddress : Prop :=
  (∀ (s : State) (f : Fault), cycle s = .fault f →
    ∃ r, cycleReply s = .fault r ∧ r.pc0 = some s.pc ∧
      (r.word = none ↔ 4095 ≤ s.pc.toNat) ∧ (∀ w, r.word = some w → Fetches s w) ∧
      (∀ w a, f = .decodeFault w a →
        r.kind = .decodeFault ∧ r.code = 1 ∧ r.info = none ∧ r.word = some w ∧ a = s.pc) ∧
      (∀ a, f = .stackOverflow a → r.kind = .stackOverflow ∧ r.code = 2 ∧ r.info = none ∧ a = s.pc) ∧
      (∀ a, f = .stackUnderflow a → r.kind = .stackUnderflow ∧ r.code = 3 ∧ r.info = none ∧ a = s.pc) ∧
      (∀ a, f = .memoryRange a → r.kind = .memoryRange ∧ r.code = 4 ∧ r.info = some a ∧ 4096 ≤ a) ∧
      (∀ a, f = .fontWrite a → r.kind = .fontWrite ∧ r.code = 5 ∧ r.info = some a ∧ a ≤ 0x04F) ∧
      (∀ k, f = .keyIndex k → r.kind = .keyIndex ∧ r.code = 6 ∧ r.info = some k.toNat ∧ 15 < k.toNat)) ∧
  (∀ (s : State) (bytes : List Byte),
    (bytes.length ≤ 3584 → replyTo (.load bytes) s = .ok) ∧
    (3584 < bytes.length → replyTo (.load bytes) s = .fault ⟨.loadSize, 7, none, none, some bytes.length⟩)) ∧
  (∀ (s : State) (k : Nat),
    (k ≤ 15 → replyTo (.keyDown k) s = .ok ∧ replyTo (.keyUp k) s = .ok) ∧
    (15 < k → replyTo (.keyDown k) s = .fault ⟨.keyIdRange, 8, none, none, some k⟩ ∧
      replyTo (.keyUp k) s = .fault ⟨.keyIdRange, 8, none, none, some k⟩))
end

