-- ==== Sys2Proof/Laws/Decode.lean ====
section
/-! SUPPORT. The fields of an encoded word (30_encoding.md R71): each format gives back the fields it was made of. -/

namespace Sys2Proof

/-- The bits of a word of format ADDR. -/
theorem getLsbD_encAddr (op : Nibble) (nnn : Addr12) (k : Nat) :
    (encAddr op nnn).getLsbD k = if k < 12 then nnn.getLsbD k else op.getLsbD (k - 12) := by
  show (op ++ nnn : BitVec (4 + 12)).getLsbD k = _
  rw [BitVec.getLsbD_append]

/-- The bits of a word of formats XNN and XFF. -/
theorem getLsbD_encXNN (op x : Nibble) (nn : Byte) (k : Nat) :
    (encXNN op x nn).getLsbD k =
      if k < 8 then nn.getLsbD k else if k < 12 then x.getLsbD (k - 8) else op.getLsbD (k - 12) := by
  show (op ++ (x ++ nn : BitVec (4 + 8)) : BitVec (4 + (4 + 8))).getLsbD k = _
  rw [BitVec.getLsbD_append, BitVec.getLsbD_append]
  split <;> split <;> first | rfl | omega

/-- The bits of a word of formats XYF and XYN. -/
theorem getLsbD_encXYN (op x y f : Nibble) (k : Nat) :
    (encXYN op x y f).getLsbD k =
      if k < 4 then f.getLsbD k else if k < 8 then y.getLsbD (k - 4)
      else if k < 12 then x.getLsbD (k - 8) else op.getLsbD (k - 12) := by
  show (op ++ (x ++ (y ++ f : BitVec (4 + 4)) : BitVec (4 + (4 + 4))) : BitVec (4 + (4 + (4 + 4)))).getLsbD k = _
  rw [BitVec.getLsbD_append, BitVec.getLsbD_append, BitVec.getLsbD_append]
  split <;> split <;> (try split) <;> first | rfl | omega

/-- A field of a word is the field whose bits it has. -/
theorem field_eq {len : Nat} (w : Word) (lo : Nat) (v : BitVec len) (h : ∀ k, k < len → w.getLsbD (lo + k) = v.getLsbD k) :
    w.extractLsb' lo len = v := by
  apply BitVec.eq_of_getLsbD_eq
  intro k hk
  rw [BitVec.getLsbD_extractLsb', h k hk]
  simp [hk]

@[simp] theorem opOf_encAddr (op : Nibble) (nnn : Addr12) : opOf (encAddr op nnn) = op :=
  field_eq _ _ _ fun k _ => by rw [getLsbD_encAddr, if_neg (by omega), Nat.add_sub_cancel_left]
@[simp] theorem nnnOf_encAddr (op : Nibble) (nnn : Addr12) : nnnOf (encAddr op nnn) = nnn :=
  field_eq _ _ _ fun k hk => by rw [getLsbD_encAddr, if_pos (by omega), Nat.zero_add]

@[simp] theorem opOf_encXNN (op x : Nibble) (nn : Byte) : opOf (encXNN op x nn) = op :=
  field_eq _ _ _ fun k _ => by
    rw [getLsbD_encXNN, if_neg (by omega), if_neg (by omega), Nat.add_sub_cancel_left]
@[simp] theorem xOf_encXNN (op x : Nibble) (nn : Byte) : xOf (encXNN op x nn) = x :=
  field_eq _ _ _ fun k hk => by
    rw [getLsbD_encXNN, if_neg (by omega), if_pos (by omega), Nat.add_sub_cancel_left]
@[simp] theorem nnOf_encXNN (op x : Nibble) (nn : Byte) : nnOf (encXNN op x nn) = nn :=
  field_eq _ _ _ fun k hk => by rw [getLsbD_encXNN, if_pos (by omega), Nat.zero_add]

@[simp] theorem opOf_encXYN (op x y f : Nibble) : opOf (encXYN op x y f) = op :=
  field_eq _ _ _ fun k _ => by
    rw [getLsbD_encXYN, if_neg (by omega), if_neg (by omega), if_neg (by omega), Nat.add_sub_cancel_left]
@[simp] theorem xOf_encXYN (op x y f : Nibble) : xOf (encXYN op x y f) = x :=
  field_eq _ _ _ fun k hk => by
    rw [getLsbD_encXYN, if_neg (by omega), if_neg (by omega), if_pos (by omega), Nat.add_sub_cancel_left]
@[simp] theorem yOf_encXYN (op x y f : Nibble) : yOf (encXYN op x y f) = y :=
  field_eq _ _ _ fun k hk => by
    rw [getLsbD_encXYN, if_neg (by omega), if_pos (by omega), Nat.add_sub_cancel_left]
@[simp] theorem nOf_encXYN (op x y f : Nibble) : nOf (encXYN op x y f) = f :=
  field_eq _ _ _ fun k hk => by rw [getLsbD_encXYN, if_pos (by omega), Nat.zero_add]

/-- The bytes of a word, read big-endian, are the word (R54). -/
theorem bigEndian_wordBytes (w : Word) : bigEndian (w.extractLsb' 8 8) (w.extractLsb' 0 8) = w := by
  apply BitVec.eq_of_getLsbD_eq
  intro k hk
  show (w.extractLsb' 8 8 ++ w.extractLsb' 0 8 : BitVec (8 + 8)).getLsbD k = _
  rw [BitVec.getLsbD_append]
  split <;> rename_i h
  · simp [h]
  · have e : 8 + (k - 8) = k := by omega
    have h8 : k - 8 < 8 := by omega
    simp [e, h8]

end Sys2Proof
end

