-- ==== Sys2Proof/Laws/State.lean ====
section
/-! SUPPORT. One lemma per field per update of State, so that no proof unfolds a record update; and how the reads (getV, key, lit, readByte) see the updates. -/

namespace Sys2Proof.Machine

variable (s : State)

/-! ### setV -/

@[simp] theorem State.setV_regs (x : Nibble) (v : Byte) : (s.setV x v).regs = s.regs.set x.toNat v x.isLt := rfl
@[simp] theorem State.setV_pc (x : Nibble) (v : Byte) : (s.setV x v).pc = s.pc := rfl
@[simp] theorem State.setV_i (x : Nibble) (v : Byte) : (s.setV x v).i = s.i := rfl
@[simp] theorem State.setV_stack (x : Nibble) (v : Byte) : (s.setV x v).stack = s.stack := rfl
@[simp] theorem State.setV_sp (x : Nibble) (v : Byte) : (s.setV x v).sp = s.sp := rfl
@[simp] theorem State.setV_dt (x : Nibble) (v : Byte) : (s.setV x v).dt = s.dt := rfl
@[simp] theorem State.setV_st (x : Nibble) (v : Byte) : (s.setV x v).st = s.st := rfl
@[simp] theorem State.setV_keys (x : Nibble) (v : Byte) : (s.setV x v).keys = s.keys := rfl
@[simp] theorem State.setV_fb (x : Nibble) (v : Byte) : (s.setV x v).fb = s.fb := rfl
@[simp] theorem State.setV_mem (x : Nibble) (v : Byte) : (s.setV x v).mem = s.mem := rfl
@[simp] theorem State.setV_script (x : Nibble) (v : Byte) : (s.setV x v).script = s.script := rfl
@[simp] theorem State.setV_draws (x : Nibble) (v : Byte) : (s.setV x v).draws = s.draws := rfl

/-! ### setBlock -/

@[simp] theorem State.setBlock_regs (bs : List Byte) : (s.setBlock bs).regs = Vector.ofFn (fun k : Fin 16 => bs[k.val]?.getD s.regs[k]) := rfl
@[simp] theorem State.setBlock_pc (bs : List Byte) : (s.setBlock bs).pc = s.pc := rfl
@[simp] theorem State.setBlock_i (bs : List Byte) : (s.setBlock bs).i = s.i := rfl
@[simp] theorem State.setBlock_stack (bs : List Byte) : (s.setBlock bs).stack = s.stack := rfl
@[simp] theorem State.setBlock_sp (bs : List Byte) : (s.setBlock bs).sp = s.sp := rfl
@[simp] theorem State.setBlock_dt (bs : List Byte) : (s.setBlock bs).dt = s.dt := rfl
@[simp] theorem State.setBlock_st (bs : List Byte) : (s.setBlock bs).st = s.st := rfl
@[simp] theorem State.setBlock_keys (bs : List Byte) : (s.setBlock bs).keys = s.keys := rfl
@[simp] theorem State.setBlock_fb (bs : List Byte) : (s.setBlock bs).fb = s.fb := rfl
@[simp] theorem State.setBlock_mem (bs : List Byte) : (s.setBlock bs).mem = s.mem := rfl
@[simp] theorem State.setBlock_script (bs : List Byte) : (s.setBlock bs).script = s.script := rfl
@[simp] theorem State.setBlock_draws (bs : List Byte) : (s.setBlock bs).draws = s.draws := rfl

/-! ### setPc -/

@[simp] theorem State.setPc_regs (t : Word) : (s.setPc t).regs = s.regs := rfl
@[simp] theorem State.setPc_pc (t : Word) : (s.setPc t).pc = t := rfl
@[simp] theorem State.setPc_i (t : Word) : (s.setPc t).i = s.i := rfl
@[simp] theorem State.setPc_stack (t : Word) : (s.setPc t).stack = s.stack := rfl
@[simp] theorem State.setPc_sp (t : Word) : (s.setPc t).sp = s.sp := rfl
@[simp] theorem State.setPc_dt (t : Word) : (s.setPc t).dt = s.dt := rfl
@[simp] theorem State.setPc_st (t : Word) : (s.setPc t).st = s.st := rfl
@[simp] theorem State.setPc_keys (t : Word) : (s.setPc t).keys = s.keys := rfl
@[simp] theorem State.setPc_fb (t : Word) : (s.setPc t).fb = s.fb := rfl
@[simp] theorem State.setPc_mem (t : Word) : (s.setPc t).mem = s.mem := rfl
@[simp] theorem State.setPc_script (t : Word) : (s.setPc t).script = s.script := rfl
@[simp] theorem State.setPc_draws (t : Word) : (s.setPc t).draws = s.draws := rfl

/-! ### advance -/

@[simp] theorem State.advance_regs : s.advance.regs = s.regs := rfl
@[simp] theorem State.advance_pc : s.advance.pc = s.pc + 2#16 := rfl
@[simp] theorem State.advance_i : s.advance.i = s.i := rfl
@[simp] theorem State.advance_stack : s.advance.stack = s.stack := rfl
@[simp] theorem State.advance_sp : s.advance.sp = s.sp := rfl
@[simp] theorem State.advance_dt : s.advance.dt = s.dt := rfl
@[simp] theorem State.advance_st : s.advance.st = s.st := rfl
@[simp] theorem State.advance_keys : s.advance.keys = s.keys := rfl
@[simp] theorem State.advance_fb : s.advance.fb = s.fb := rfl
@[simp] theorem State.advance_mem : s.advance.mem = s.mem := rfl
@[simp] theorem State.advance_script : s.advance.script = s.script := rfl
@[simp] theorem State.advance_draws : s.advance.draws = s.draws := rfl

/-! ### setI -/

@[simp] theorem State.setI_regs (v : Word) : (s.setI v).regs = s.regs := rfl
@[simp] theorem State.setI_pc (v : Word) : (s.setI v).pc = s.pc := rfl
@[simp] theorem State.setI_i (v : Word) : (s.setI v).i = v := rfl
@[simp] theorem State.setI_stack (v : Word) : (s.setI v).stack = s.stack := rfl
@[simp] theorem State.setI_sp (v : Word) : (s.setI v).sp = s.sp := rfl
@[simp] theorem State.setI_dt (v : Word) : (s.setI v).dt = s.dt := rfl
@[simp] theorem State.setI_st (v : Word) : (s.setI v).st = s.st := rfl
@[simp] theorem State.setI_keys (v : Word) : (s.setI v).keys = s.keys := rfl
@[simp] theorem State.setI_fb (v : Word) : (s.setI v).fb = s.fb := rfl
@[simp] theorem State.setI_mem (v : Word) : (s.setI v).mem = s.mem := rfl
@[simp] theorem State.setI_script (v : Word) : (s.setI v).script = s.script := rfl
@[simp] theorem State.setI_draws (v : Word) : (s.setI v).draws = s.draws := rfl

/-! ### setDT -/

@[simp] theorem State.setDT_regs (v : Byte) : (s.setDT v).regs = s.regs := rfl
@[simp] theorem State.setDT_pc (v : Byte) : (s.setDT v).pc = s.pc := rfl
@[simp] theorem State.setDT_i (v : Byte) : (s.setDT v).i = s.i := rfl
@[simp] theorem State.setDT_stack (v : Byte) : (s.setDT v).stack = s.stack := rfl
@[simp] theorem State.setDT_sp (v : Byte) : (s.setDT v).sp = s.sp := rfl
@[simp] theorem State.setDT_dt (v : Byte) : (s.setDT v).dt = v := rfl
@[simp] theorem State.setDT_st (v : Byte) : (s.setDT v).st = s.st := rfl
@[simp] theorem State.setDT_keys (v : Byte) : (s.setDT v).keys = s.keys := rfl
@[simp] theorem State.setDT_fb (v : Byte) : (s.setDT v).fb = s.fb := rfl
@[simp] theorem State.setDT_mem (v : Byte) : (s.setDT v).mem = s.mem := rfl
@[simp] theorem State.setDT_script (v : Byte) : (s.setDT v).script = s.script := rfl
@[simp] theorem State.setDT_draws (v : Byte) : (s.setDT v).draws = s.draws := rfl

/-! ### setST -/

@[simp] theorem State.setST_regs (v : Byte) : (s.setST v).regs = s.regs := rfl
@[simp] theorem State.setST_pc (v : Byte) : (s.setST v).pc = s.pc := rfl
@[simp] theorem State.setST_i (v : Byte) : (s.setST v).i = s.i := rfl
@[simp] theorem State.setST_stack (v : Byte) : (s.setST v).stack = s.stack := rfl
@[simp] theorem State.setST_sp (v : Byte) : (s.setST v).sp = s.sp := rfl
@[simp] theorem State.setST_dt (v : Byte) : (s.setST v).dt = s.dt := rfl
@[simp] theorem State.setST_st (v : Byte) : (s.setST v).st = v := rfl
@[simp] theorem State.setST_keys (v : Byte) : (s.setST v).keys = s.keys := rfl
@[simp] theorem State.setST_fb (v : Byte) : (s.setST v).fb = s.fb := rfl
@[simp] theorem State.setST_mem (v : Byte) : (s.setST v).mem = s.mem := rfl
@[simp] theorem State.setST_script (v : Byte) : (s.setST v).script = s.script := rfl
@[simp] theorem State.setST_draws (v : Byte) : (s.setST v).draws = s.draws := rfl

/-! ### setKey -/

@[simp] theorem State.setKey_regs (k : Fin 16) (b : Bool) : (s.setKey k b).regs = s.regs := rfl
@[simp] theorem State.setKey_pc (k : Fin 16) (b : Bool) : (s.setKey k b).pc = s.pc := rfl
@[simp] theorem State.setKey_i (k : Fin 16) (b : Bool) : (s.setKey k b).i = s.i := rfl
@[simp] theorem State.setKey_stack (k : Fin 16) (b : Bool) : (s.setKey k b).stack = s.stack := rfl
@[simp] theorem State.setKey_sp (k : Fin 16) (b : Bool) : (s.setKey k b).sp = s.sp := rfl
@[simp] theorem State.setKey_dt (k : Fin 16) (b : Bool) : (s.setKey k b).dt = s.dt := rfl
@[simp] theorem State.setKey_st (k : Fin 16) (b : Bool) : (s.setKey k b).st = s.st := rfl
@[simp] theorem State.setKey_keys (k : Fin 16) (b : Bool) : (s.setKey k b).keys = s.keys.set k.val b k.isLt := rfl
@[simp] theorem State.setKey_fb (k : Fin 16) (b : Bool) : (s.setKey k b).fb = s.fb := rfl
@[simp] theorem State.setKey_mem (k : Fin 16) (b : Bool) : (s.setKey k b).mem = s.mem := rfl
@[simp] theorem State.setKey_script (k : Fin 16) (b : Bool) : (s.setKey k b).script = s.script := rfl
@[simp] theorem State.setKey_draws (k : Fin 16) (b : Bool) : (s.setKey k b).draws = s.draws := rfl

/-! ### setFb -/

@[simp] theorem State.setFb_regs (g : Grid) : (s.setFb g).regs = s.regs := rfl
@[simp] theorem State.setFb_pc (g : Grid) : (s.setFb g).pc = s.pc := rfl
@[simp] theorem State.setFb_i (g : Grid) : (s.setFb g).i = s.i := rfl
@[simp] theorem State.setFb_stack (g : Grid) : (s.setFb g).stack = s.stack := rfl
@[simp] theorem State.setFb_sp (g : Grid) : (s.setFb g).sp = s.sp := rfl
@[simp] theorem State.setFb_dt (g : Grid) : (s.setFb g).dt = s.dt := rfl
@[simp] theorem State.setFb_st (g : Grid) : (s.setFb g).st = s.st := rfl
@[simp] theorem State.setFb_keys (g : Grid) : (s.setFb g).keys = s.keys := rfl
@[simp] theorem State.setFb_fb (g : Grid) : (s.setFb g).fb = g := rfl
@[simp] theorem State.setFb_mem (g : Grid) : (s.setFb g).mem = s.mem := rfl
@[simp] theorem State.setFb_script (g : Grid) : (s.setFb g).script = s.script := rfl
@[simp] theorem State.setFb_draws (g : Grid) : (s.setFb g).draws = s.draws := rfl

/-! ### nextDraw -/

@[simp] theorem State.nextDraw_regs : s.nextDraw.regs = s.regs := rfl
@[simp] theorem State.nextDraw_pc : s.nextDraw.pc = s.pc := rfl
@[simp] theorem State.nextDraw_i : s.nextDraw.i = s.i := rfl
@[simp] theorem State.nextDraw_stack : s.nextDraw.stack = s.stack := rfl
@[simp] theorem State.nextDraw_sp : s.nextDraw.sp = s.sp := rfl
@[simp] theorem State.nextDraw_dt : s.nextDraw.dt = s.dt := rfl
@[simp] theorem State.nextDraw_st : s.nextDraw.st = s.st := rfl
@[simp] theorem State.nextDraw_keys : s.nextDraw.keys = s.keys := rfl
@[simp] theorem State.nextDraw_fb : s.nextDraw.fb = s.fb := rfl
@[simp] theorem State.nextDraw_mem : s.nextDraw.mem = s.mem := rfl
@[simp] theorem State.nextDraw_script : s.nextDraw.script = s.script := rfl
@[simp] theorem State.nextDraw_draws : s.nextDraw.draws = s.draws + 1 := rfl

/-! ### setSlot -/

@[simp] theorem State.setSlot_regs (k : Fin 16) (v : Word) : (s.setSlot k v).regs = s.regs := rfl
@[simp] theorem State.setSlot_pc (k : Fin 16) (v : Word) : (s.setSlot k v).pc = s.pc := rfl
@[simp] theorem State.setSlot_i (k : Fin 16) (v : Word) : (s.setSlot k v).i = s.i := rfl
@[simp] theorem State.setSlot_stack (k : Fin 16) (v : Word) : (s.setSlot k v).stack = s.stack.set k.val v k.isLt := rfl
@[simp] theorem State.setSlot_sp (k : Fin 16) (v : Word) : (s.setSlot k v).sp = s.sp := rfl
@[simp] theorem State.setSlot_dt (k : Fin 16) (v : Word) : (s.setSlot k v).dt = s.dt := rfl
@[simp] theorem State.setSlot_st (k : Fin 16) (v : Word) : (s.setSlot k v).st = s.st := rfl
@[simp] theorem State.setSlot_keys (k : Fin 16) (v : Word) : (s.setSlot k v).keys = s.keys := rfl
@[simp] theorem State.setSlot_fb (k : Fin 16) (v : Word) : (s.setSlot k v).fb = s.fb := rfl
@[simp] theorem State.setSlot_mem (k : Fin 16) (v : Word) : (s.setSlot k v).mem = s.mem := rfl
@[simp] theorem State.setSlot_script (k : Fin 16) (v : Word) : (s.setSlot k v).script = s.script := rfl
@[simp] theorem State.setSlot_draws (k : Fin 16) (v : Word) : (s.setSlot k v).draws = s.draws := rfl

/-! ### setSP -/

@[simp] theorem State.setSP_regs (n : Fin 17) : (s.setSP n).regs = s.regs := rfl
@[simp] theorem State.setSP_pc (n : Fin 17) : (s.setSP n).pc = s.pc := rfl
@[simp] theorem State.setSP_i (n : Fin 17) : (s.setSP n).i = s.i := rfl
@[simp] theorem State.setSP_stack (n : Fin 17) : (s.setSP n).stack = s.stack := rfl
@[simp] theorem State.setSP_sp (n : Fin 17) : (s.setSP n).sp = n := rfl
@[simp] theorem State.setSP_dt (n : Fin 17) : (s.setSP n).dt = s.dt := rfl
@[simp] theorem State.setSP_st (n : Fin 17) : (s.setSP n).st = s.st := rfl
@[simp] theorem State.setSP_keys (n : Fin 17) : (s.setSP n).keys = s.keys := rfl
@[simp] theorem State.setSP_fb (n : Fin 17) : (s.setSP n).fb = s.fb := rfl
@[simp] theorem State.setSP_mem (n : Fin 17) : (s.setSP n).mem = s.mem := rfl
@[simp] theorem State.setSP_script (n : Fin 17) : (s.setSP n).script = s.script := rfl
@[simp] theorem State.setSP_draws (n : Fin 17) : (s.setSP n).draws = s.draws := rfl

/-! ### setMem -/

@[simp] theorem State.setMem_regs (m : List Host.Cell) : (s.setMem m).regs = s.regs := rfl
@[simp] theorem State.setMem_pc (m : List Host.Cell) : (s.setMem m).pc = s.pc := rfl
@[simp] theorem State.setMem_i (m : List Host.Cell) : (s.setMem m).i = s.i := rfl
@[simp] theorem State.setMem_stack (m : List Host.Cell) : (s.setMem m).stack = s.stack := rfl
@[simp] theorem State.setMem_sp (m : List Host.Cell) : (s.setMem m).sp = s.sp := rfl
@[simp] theorem State.setMem_dt (m : List Host.Cell) : (s.setMem m).dt = s.dt := rfl
@[simp] theorem State.setMem_st (m : List Host.Cell) : (s.setMem m).st = s.st := rfl
@[simp] theorem State.setMem_keys (m : List Host.Cell) : (s.setMem m).keys = s.keys := rfl
@[simp] theorem State.setMem_fb (m : List Host.Cell) : (s.setMem m).fb = s.fb := rfl
@[simp] theorem State.setMem_mem (m : List Host.Cell) : (s.setMem m).mem = m := rfl
@[simp] theorem State.setMem_script (m : List Host.Cell) : (s.setMem m).script = s.script := rfl
@[simp] theorem State.setMem_draws (m : List Host.Cell) : (s.setMem m).draws = s.draws := rfl
/-! ### skipIf, the host commands and the issue of a command -/

@[simp] theorem State.skipIf_regs (c : Bool) : (s.skipIf c).regs = s.regs := by cases c <;> rfl
@[simp] theorem State.skipIf_i (c : Bool) : (s.skipIf c).i = s.i := by cases c <;> rfl
@[simp] theorem State.skipIf_stack (c : Bool) : (s.skipIf c).stack = s.stack := by cases c <;> rfl
@[simp] theorem State.skipIf_sp (c : Bool) : (s.skipIf c).sp = s.sp := by cases c <;> rfl
@[simp] theorem State.skipIf_dt (c : Bool) : (s.skipIf c).dt = s.dt := by cases c <;> rfl
@[simp] theorem State.skipIf_st (c : Bool) : (s.skipIf c).st = s.st := by cases c <;> rfl
@[simp] theorem State.skipIf_keys (c : Bool) : (s.skipIf c).keys = s.keys := by cases c <;> rfl
@[simp] theorem State.skipIf_fb (c : Bool) : (s.skipIf c).fb = s.fb := by cases c <;> rfl
@[simp] theorem State.skipIf_mem (c : Bool) : (s.skipIf c).mem = s.mem := by cases c <;> rfl
@[simp] theorem State.skipIf_script (c : Bool) : (s.skipIf c).script = s.script := by cases c <;> rfl
@[simp] theorem State.skipIf_draws (c : Bool) : (s.skipIf c).draws = s.draws := by cases c <;> rfl
@[simp] theorem State.skipIf_pc (c : Bool) : (s.skipIf c).pc = if c then s.pc + 2#16 else s.pc := by cases c <;> rfl
@[simp] theorem tickTimers_regs : (tickTimers s).regs = s.regs := rfl
@[simp] theorem tickTimers_pc : (tickTimers s).pc = s.pc := rfl
@[simp] theorem tickTimers_i : (tickTimers s).i = s.i := rfl
@[simp] theorem tickTimers_stack : (tickTimers s).stack = s.stack := rfl
@[simp] theorem tickTimers_sp : (tickTimers s).sp = s.sp := rfl
@[simp] theorem tickTimers_dt : (tickTimers s).dt = tickDown s.dt := rfl
@[simp] theorem tickTimers_st : (tickTimers s).st = tickDown s.st := rfl
@[simp] theorem tickTimers_keys : (tickTimers s).keys = s.keys := rfl
@[simp] theorem tickTimers_fb : (tickTimers s).fb = s.fb := rfl
@[simp] theorem tickTimers_mem : (tickTimers s).mem = s.mem := rfl
@[simp] theorem tickTimers_script : (tickTimers s).script = s.script := rfl
@[simp] theorem tickTimers_draws : (tickTimers s).draws = s.draws := rfl
@[simp] theorem resetCore_regs : (resetCore s).regs = State.reset.regs := rfl
@[simp] theorem resetCore_pc : (resetCore s).pc = State.reset.pc := rfl
@[simp] theorem resetCore_i : (resetCore s).i = State.reset.i := rfl
@[simp] theorem resetCore_stack : (resetCore s).stack = State.reset.stack := rfl
@[simp] theorem resetCore_sp : (resetCore s).sp = State.reset.sp := rfl
@[simp] theorem resetCore_dt : (resetCore s).dt = State.reset.dt := rfl
@[simp] theorem resetCore_st : (resetCore s).st = State.reset.st := rfl
@[simp] theorem resetCore_keys : (resetCore s).keys = State.reset.keys := rfl
@[simp] theorem resetCore_fb : (resetCore s).fb = State.reset.fb := rfl
@[simp] theorem resetCore_mem : (resetCore s).mem = State.reset.mem := rfl
@[simp] theorem resetCore_script : (resetCore s).script = s.script := rfl
@[simp] theorem resetCore_draws : (resetCore s).draws = s.draws := rfl
@[simp] theorem afterIssue_regs : (afterIssue s).regs = s.regs := rfl
@[simp] theorem afterIssue_pc : (afterIssue s).pc = s.pc := rfl
@[simp] theorem afterIssue_i : (afterIssue s).i = s.i := rfl
@[simp] theorem afterIssue_stack : (afterIssue s).stack = s.stack := rfl
@[simp] theorem afterIssue_sp : (afterIssue s).sp = s.sp := rfl
@[simp] theorem afterIssue_dt : (afterIssue s).dt = s.dt := rfl
@[simp] theorem afterIssue_st : (afterIssue s).st = s.st := rfl
@[simp] theorem afterIssue_keys : (afterIssue s).keys = s.keys := rfl
@[simp] theorem afterIssue_fb : (afterIssue s).fb = s.fb := rfl
@[simp] theorem afterIssue_mem : (afterIssue s).mem = s.mem := rfl
@[simp] theorem afterIssue_script : (afterIssue s).script = s.script.tail := rfl
@[simp] theorem afterIssue_draws : (afterIssue s).draws = s.draws := rfl

/-! ### The reads through the updates -/

@[simp] theorem State.getV_setSlot (k : Fin 16) (v : Word) (y : Nibble) : (s.setSlot k v).getV y = s.getV y := rfl
@[simp] theorem State.key_setSlot (k : Fin 16) (v : Word) (j : Fin 16) : (s.setSlot k v).key j = s.key j := rfl
@[simp] theorem State.lit_setSlot (k : Fin 16) (v : Word) (c : CellPos) : (s.setSlot k v).lit c = s.lit c := rfl
@[simp] theorem State.readByte_setSlot (k : Fin 16) (v : Word) (c : Nat) : (s.setSlot k v).readByte c = s.readByte c := rfl
@[simp] theorem State.getV_setSP (n : Fin 17) (y : Nibble) : (s.setSP n).getV y = s.getV y := rfl
@[simp] theorem State.key_setSP (n : Fin 17) (j : Fin 16) : (s.setSP n).key j = s.key j := rfl
@[simp] theorem State.lit_setSP (n : Fin 17) (c : CellPos) : (s.setSP n).lit c = s.lit c := rfl
@[simp] theorem State.readByte_setSP (n : Fin 17) (c : Nat) : (s.setSP n).readByte c = s.readByte c := rfl
@[simp] theorem State.getV_setMem (m : List Host.Cell) (y : Nibble) : (s.setMem m).getV y = s.getV y := rfl
@[simp] theorem State.key_setMem (m : List Host.Cell) (j : Fin 16) : (s.setMem m).key j = s.key j := rfl
@[simp] theorem State.lit_setMem (m : List Host.Cell) (c : CellPos) : (s.setMem m).lit c = s.lit c := rfl
@[simp] theorem State.readByte_setMem (m : List Host.Cell) (c : Nat) : (s.setMem m).readByte c = Memory.read m c := rfl
@[simp] theorem State.key_setV (x : Nibble) (v : Byte) (j : Fin 16) : (s.setV x v).key j = s.key j := rfl
@[simp] theorem State.lit_setV (x : Nibble) (v : Byte) (c : CellPos) : (s.setV x v).lit c = s.lit c := rfl
@[simp] theorem State.readByte_setV (x : Nibble) (v : Byte) (a : Nat) : (s.setV x v).readByte a = s.readByte a := rfl
@[simp] theorem State.key_setBlock (bs : List Byte) (j : Fin 16) : (s.setBlock bs).key j = s.key j := rfl
@[simp] theorem State.lit_setBlock (bs : List Byte) (c : CellPos) : (s.setBlock bs).lit c = s.lit c := rfl
@[simp] theorem State.readByte_setBlock (bs : List Byte) (a : Nat) : (s.setBlock bs).readByte a = s.readByte a := rfl
@[simp] theorem State.getV_setPc (t : Word) (y : Nibble) : (s.setPc t).getV y = s.getV y := rfl
@[simp] theorem State.key_setPc (t : Word) (j : Fin 16) : (s.setPc t).key j = s.key j := rfl
@[simp] theorem State.lit_setPc (t : Word) (c : CellPos) : (s.setPc t).lit c = s.lit c := rfl
@[simp] theorem State.readByte_setPc (t : Word) (a : Nat) : (s.setPc t).readByte a = s.readByte a := rfl
@[simp] theorem State.getV_advance (y : Nibble) : s.advance.getV y = s.getV y := rfl
@[simp] theorem State.key_advance (j : Fin 16) : s.advance.key j = s.key j := rfl
@[simp] theorem State.lit_advance (c : CellPos) : s.advance.lit c = s.lit c := rfl
@[simp] theorem State.readByte_advance (a : Nat) : s.advance.readByte a = s.readByte a := rfl
@[simp] theorem State.getV_setI (v : Word) (y : Nibble) : (s.setI v).getV y = s.getV y := rfl
@[simp] theorem State.key_setI (v : Word) (j : Fin 16) : (s.setI v).key j = s.key j := rfl
@[simp] theorem State.lit_setI (v : Word) (c : CellPos) : (s.setI v).lit c = s.lit c := rfl
@[simp] theorem State.readByte_setI (v : Word) (a : Nat) : (s.setI v).readByte a = s.readByte a := rfl
@[simp] theorem State.getV_setDT (v : Byte) (y : Nibble) : (s.setDT v).getV y = s.getV y := rfl
@[simp] theorem State.key_setDT (v : Byte) (j : Fin 16) : (s.setDT v).key j = s.key j := rfl
@[simp] theorem State.lit_setDT (v : Byte) (c : CellPos) : (s.setDT v).lit c = s.lit c := rfl
@[simp] theorem State.readByte_setDT (v : Byte) (a : Nat) : (s.setDT v).readByte a = s.readByte a := rfl
@[simp] theorem State.getV_setST (v : Byte) (y : Nibble) : (s.setST v).getV y = s.getV y := rfl
@[simp] theorem State.key_setST (v : Byte) (j : Fin 16) : (s.setST v).key j = s.key j := rfl
@[simp] theorem State.lit_setST (v : Byte) (c : CellPos) : (s.setST v).lit c = s.lit c := rfl
@[simp] theorem State.readByte_setST (v : Byte) (a : Nat) : (s.setST v).readByte a = s.readByte a := rfl
@[simp] theorem State.getV_setKey (k : Fin 16) (b : Bool) (y : Nibble) : (s.setKey k b).getV y = s.getV y := rfl
@[simp] theorem State.lit_setKey (k : Fin 16) (b : Bool) (c : CellPos) : (s.setKey k b).lit c = s.lit c := rfl
@[simp] theorem State.readByte_setKey (k : Fin 16) (b : Bool) (a : Nat) : (s.setKey k b).readByte a = s.readByte a := rfl
@[simp] theorem State.getV_setFb (g : Grid) (y : Nibble) : (s.setFb g).getV y = s.getV y := rfl
@[simp] theorem State.key_setFb (g : Grid) (j : Fin 16) : (s.setFb g).key j = s.key j := rfl
@[simp] theorem State.readByte_setFb (g : Grid) (a : Nat) : (s.setFb g).readByte a = s.readByte a := rfl
@[simp] theorem State.getV_nextDraw (y : Nibble) : s.nextDraw.getV y = s.getV y := rfl
@[simp] theorem State.key_nextDraw (j : Fin 16) : s.nextDraw.key j = s.key j := rfl
@[simp] theorem State.lit_nextDraw (c : CellPos) : s.nextDraw.lit c = s.lit c := rfl
@[simp] theorem State.readByte_nextDraw (a : Nat) : s.nextDraw.readByte a = s.readByte a := rfl
@[simp] theorem State.getV_skipIf (c : Bool) (y : Nibble) : (s.skipIf c).getV y = s.getV y := by cases c <;> rfl
@[simp] theorem getV_tickTimers (y : Nibble) : (tickTimers s).getV y = s.getV y := rfl
@[simp] theorem getV_afterIssue (y : Nibble) : (afterIssue s).getV y = s.getV y := rfl
@[simp] theorem State.key_skipIf (c : Bool) (j : Fin 16) : (s.skipIf c).key j = s.key j := by cases c <;> rfl
@[simp] theorem key_tickTimers (j : Fin 16) : (tickTimers s).key j = s.key j := rfl
@[simp] theorem key_afterIssue (j : Fin 16) : (afterIssue s).key j = s.key j := rfl
@[simp] theorem State.lit_skipIf (c : Bool) (p : CellPos) : (s.skipIf c).lit p = s.lit p := by cases c <;> rfl
@[simp] theorem lit_tickTimers (p : CellPos) : (tickTimers s).lit p = s.lit p := rfl
@[simp] theorem lit_afterIssue (p : CellPos) : (afterIssue s).lit p = s.lit p := rfl
@[simp] theorem State.readByte_skipIf (c : Bool) (a : Nat) : (s.skipIf c).readByte a = s.readByte a := by cases c <;> rfl
@[simp] theorem readByte_tickTimers (a : Nat) : (tickTimers s).readByte a = s.readByte a := rfl
@[simp] theorem readByte_afterIssue (a : Nat) : (afterIssue s).readByte a = s.readByte a := rfl

theorem State.getV_setV (x y : Nibble) (v : Byte) :
    (s.setV x v).getV y = if y = x then v else s.getV y := by
  unfold State.getV State.setV
  by_cases h : y = x
  · subst h; simp
  · have hne : x.toNat ≠ y.toNat := fun e => h (BitVec.eq_of_toNat_eq e.symm)
    simp [h, hne]

@[simp] theorem State.getV_setV_self (x : Nibble) (v : Byte) : (s.setV x v).getV x = v := by
  simp [State.getV_setV]

theorem State.getV_setV_ne (x y : Nibble) (v : Byte) (h : y ≠ x) : (s.setV x v).getV y = s.getV y := by
  simp [State.getV_setV, h]

theorem State.stack_setSlot (k j : Fin 16) (v : Word) :
    (s.setSlot k v).stack[j] = if j = k then v else s.stack[j] := by
  unfold State.setSlot
  by_cases h : j = k
  · subst h; simp
  · have hne : k.val ≠ j.val := fun e => h (Fin.ext e.symm)
    simp [h, hne]

theorem State.getV_setBlock (bs : List Byte) (y : Nibble) :
    (s.setBlock bs).getV y = bs[y.toNat]?.getD (s.getV y) := by
  simp [State.getV, State.setBlock]

theorem State.key_setKey (k j : Fin 16) (b : Bool) : (s.setKey k b).key j = if j = k then b else s.key j := by
  unfold State.key State.setKey
  by_cases h : j = k
  · subst h; simp
  · have hne : k.val ≠ j.val := fun e => h (Fin.ext e.symm)
    simp [h, hne]

@[simp] theorem State.lit_setFb (g : Grid) (c : CellPos) : (s.setFb g).lit c = Grid.lit g c := rfl

theorem Grid.lit_toggle (g : Grid) (p q : CellPos) :
    Grid.lit (Grid.toggle g p) q = if q = p then !Grid.lit g q else Grid.lit g q := by
  obtain ⟨r, c⟩ := p
  obtain ⟨r', c'⟩ := q
  unfold Grid.lit Grid.toggle
  by_cases hr : r = r'
  · subst hr
    by_cases hc : c = c'
    · subst hc; simp [Grid.lit]
    · have hne : c.val ≠ c'.val := fun e => hc (Fin.ext e)
      have hc' : ¬ c' = c := fun e => hc e.symm
      simp [hne, hc']
  · have hne : r.val ≠ r'.val := fun e => hr (Fin.ext e)
    have hr' : ¬ r' = r := fun e => hr e.symm
    simp [hne, hr']

@[simp] theorem Grid.lit_blank (p : CellPos) : Grid.lit Grid.blank p = false := by
  simp [Grid.lit, Grid.blank]

end Sys2Proof.Machine
end

