-- ==== Sys2Proof/Laws/Memory.lean ====
section
/-! SUPPORT. The laws of the byte memory: read after write, the canonical form is kept, and what the range and font checks find. -/

namespace Sys2Proof.Machine

/-! ### Reading what was written -/

theorem Memory.read_put (m : List Host.Cell) (a b : Nat) (v : Byte) (h : Memory.read m a = Memory.unlisted a) :
    Memory.read (Memory.put a v m) b = if b = a then v else Memory.read m b := by
  unfold Memory.put
  by_cases hb : b = a
  · subst hb
    by_cases hv : v = Memory.unlisted b
    · rw [if_pos hv, if_pos rfl, h, hv]
    · simp [hv, Memory.read]
  · have hab : ¬ a = b := fun e => hb e.symm
    rw [if_neg hb]
    split
    · rfl
    · simp [Memory.read, hab]

theorem Memory.read_insert (m : List Host.Cell) (a b : Nat) (v : Byte) (h : ∀ c ∈ m, c.1 ≠ a) :
    Memory.read (Memory.insert m a v) b = if b = a then v else Memory.read m b := by
  have unl : ∀ m : List Host.Cell, (∀ c ∈ m, c.1 ≠ a) → Memory.read m a = Memory.unlisted a := by
    intro m hm
    induction m with
    | nil => rfl
    | cons c m ih =>
      have hc : ¬ c.1 = a := hm c (by simp)
      simp [Memory.read, hc, ih (fun d hd => hm d (by simp [hd]))]
  induction m with
  | nil => exact Memory.read_put [] a b v rfl
  | cons c m ih =>
    obtain ⟨d, u⟩ := c
    simp only [Memory.insert]
    split
    · exact Memory.read_put _ a b v (unl _ h)
    · have ih' := ih (fun e he => h e (by simp [he]))
      have hd : ¬ d = a := h (d, u) (by simp)
      by_cases hdb : d = b
      · subst hdb; simp [Memory.read, hd]
      · simp [Memory.read, hdb, ih']

theorem Memory.read_filter (m : List Host.Cell) (a b : Nat) (h : b ≠ a) :
    Memory.read (m.filter (fun c => c.1 != a)) b = Memory.read m b := by
  induction m with
  | nil => rfl
  | cons c m ih =>
    obtain ⟨d, u⟩ := c
    by_cases hd : d = a
    · have hdb : ¬ d = b := fun e => h (e.symm.trans hd)
      simp [Memory.read, hd, ih]
      intro e; exact absurd e.symm h
    · simp [Memory.read, hd, ih]

/-- Read after write: the address written reads as the byte, every other address as before. -/
theorem Memory.read_write (m : List Host.Cell) (a b : Nat) (v : Byte) :
    Memory.read (Memory.write m a v) b = if b = a then v else Memory.read m b := by
  unfold Memory.write
  rw [Memory.read_insert _ _ _ _ (by intro c hc; simpa using (List.mem_filter.mp hc).2)]
  split
  · rfl
  · rename_i h; exact Memory.read_filter m a b h

/-- Reading after a block write (R54): byte `b - a` of the block inside it, the old byte outside. -/
theorem Memory.read_writeBytes (bs : List Byte) (m : List Host.Cell) (a b : Nat) :
    Memory.read (Memory.writeBytes m a bs) b =
      if a ≤ b then bs[b - a]?.getD (Memory.read m b) else Memory.read m b := by
  induction bs generalizing m a with
  | nil => simp [Memory.writeBytes]
  | cons v vs ih =>
    rw [Memory.writeBytes, ih, Memory.read_write]
    by_cases h1 : a + 1 ≤ b
    · have e : b - a = (b - (a + 1)) + 1 := by omega
      have hb : ¬ b = a := by omega
      simp [h1, e, hb, Nat.le_of_lt h1]
    · by_cases h2 : b = a
      · subst h2; simp
      · have : ¬ a ≤ b := by omega
        simp [h1, h2, this]

/-! ### The canonical form -/

theorem Memory.wf_nil : Memory.wf [] := ⟨List.Pairwise.nil, by simp⟩

theorem Memory.wf_filter {m : List Host.Cell} (p : Host.Cell → Bool) (h : Memory.wf m) : Memory.wf (m.filter p) :=
  ⟨h.1.sublist List.filter_sublist, fun c hc => h.2 c (List.mem_filter.mp hc).1⟩

theorem Memory.mem_put {m : List Host.Cell} {a : Nat} {v : Byte} {c : Host.Cell} (h : c ∈ Memory.put a v m) :
    c = (a, v) ∧ v ≠ Memory.unlisted a ∨ c ∈ m := by
  unfold Memory.put at h
  split at h
  · exact .inr h
  · rename_i hv
    rcases List.mem_cons.mp h with h | h
    · exact .inl ⟨h, hv⟩
    · exact .inr h

theorem Memory.mem_insert {m : List Host.Cell} {a : Nat} {v : Byte} {c : Host.Cell} (h : c ∈ Memory.insert m a v) :
    c = (a, v) ∧ v ≠ Memory.unlisted a ∨ c ∈ m := by
  induction m with
  | nil => exact Memory.mem_put h
  | cons d m ih =>
    simp only [Memory.insert] at h
    split at h
    · exact Memory.mem_put h
    · rcases List.mem_cons.mp h with h | h
      · exact .inr (by simp [h])
      · rcases ih h with h | h
        · exact .inl h
        · exact .inr (by simp [h])

theorem Memory.pairwise_insert {m : List Host.Cell} {a : Nat} {v : Byte} (h : m.Pairwise (fun c d => c.1 < d.1))
    (hne : ∀ c ∈ m, c.1 ≠ a) : (Memory.insert m a v).Pairwise (fun c d => c.1 < d.1) := by
  induction m with
  | nil => simp only [Memory.insert, Memory.put]; split <;> simp
  | cons d m ih =>
    obtain ⟨b, u⟩ := d
    have hp := List.pairwise_cons.mp h
    simp only [Memory.insert]
    split
    · rename_i hab
      simp only [Memory.put]
      split
      · exact h
      · refine List.pairwise_cons.mpr ⟨?_, h⟩
        intro c hc
        rcases List.mem_cons.mp hc with hc | hc
        · subst hc; exact hab
        · exact Nat.lt_trans hab (hp.1 c hc)
    · rename_i hab
      refine List.pairwise_cons.mpr ⟨?_, ih hp.2 (fun c hc => hne c (by simp [hc]))⟩
      intro c hc
      rcases Memory.mem_insert hc with hc | hc
      · have : b ≠ a := hne (b, u) (by simp)
        rw [hc.1]; show b < a; omega
      · exact hp.1 c hc

/-- Every write inside the memory keeps the canonical form. -/
theorem Memory.wf_write {m : List Host.Cell} (a : Nat) (v : Byte) (h : Memory.wf m) (ha : a < Config.memSize) :
    Memory.wf (Memory.write m a v) := by
  have hf := Memory.wf_filter (fun c => c.1 != a) h
  refine ⟨Memory.pairwise_insert hf.1 (by intro c hc; simpa using (List.mem_filter.mp hc).2), ?_⟩
  intro c hc
  rcases Memory.mem_insert hc with hc | hc
  · rw [hc.1]; exact ⟨ha, hc.2⟩
  · exact hf.2 c hc

theorem Memory.wf_writeBytes (bs : List Byte) {m : List Host.Cell} (a : Nat) (h : Memory.wf m)
    (ha : a + bs.length ≤ Config.memSize) : Memory.wf (Memory.writeBytes m a bs) := by
  induction bs generalizing m a with
  | nil => exact h
  | cons v vs ih =>
    simp only [List.length_cons] at ha
    exact ih (a + 1) (Memory.wf_write a v h (by omega)) (by omega)

theorem Memory.wf_writeOutsideFont (bs : List Byte) {m : List Host.Cell} (a : Nat) (h : Memory.wf m)
    (ha : a + bs.length ≤ Config.memSize) : Memory.wf (Memory.writeOutsideFont m a bs) := by
  induction bs generalizing m a with
  | nil => exact h
  | cons v vs ih =>
    simp only [List.length_cons] at ha
    refine ih (a + 1) ?_ (by omega)
    split
    · exact h
    · exact Memory.wf_write a v h (by omega)

/-! ### The checks -/

/-- R57: an access of `n` bytes at `addr` stays inside, or its lowest address outside is the larger of `addr` and 4096. -/
theorem Memory.firstOutside_eq (addr n : Nat) :
    Memory.firstOutside addr n = if addr + n ≤ 4096 ∨ n = 0 then none else some (max addr 4096) := by
  unfold Memory.firstOutside Memory.span
  induction n generalizing addr with
  | zero => simp
  | succ n ih =>
    rw [List.range'_succ, List.find?_cons]
    by_cases h : 4096 ≤ addr
    · have : ¬ addr + (n + 1) ≤ 4096 := by omega
      simp [h, this]
    · simp only [Config.memSize, h, decide_false]
      have ih' := ih (addr + 1)
      simp only [Config.memSize] at ih'
      rw [ih']
      have e1 : addr + 1 + n = addr + (n + 1) := by omega
      by_cases h0 : n = 0
      · subst h0
        have : addr + 1 ≤ 4096 := by omega
        simp [this]
      · by_cases h2 : addr + (n + 1) ≤ 4096
        · simp [e1, h2]
        · simp [e1, h2, h0]; omega

/-- R58: an access of `n` bytes at `addr` misses the font, or its lowest address in the font is `addr`. -/
theorem Memory.firstInFont_eq (addr n : Nat) :
    Memory.firstInFont addr n = if 80 ≤ addr ∨ n = 0 then none else some addr := by
  unfold Memory.firstInFont Memory.span
  induction n generalizing addr with
  | zero => simp
  | succ n ih =>
    rw [List.range'_succ, List.find?_cons]
    by_cases h : addr < 80
    · simp [Memory.inFont, h]
    · have h' : 80 ≤ addr := by omega
      simp [Memory.inFont, h, ih, h', Nat.le_succ_of_le h']

end Sys2Proof.Machine
end

