-- ==== Sys2Proof/Laws/Ops.lean ====
section
/-! SUPPORT. For each shared operation one lemma that says everything it can do, cited instead of unfolding it. -/

namespace Sys2Proof.Machine

variable (s : State)

/-! ### Ending a command -/

@[simp] theorem raise_eq (f : Fault) : raise f = .fault f := rfl
@[simp] theorem finish_ok (t : State) : finish (.ok t) = .next t := rfl
@[simp] theorem finish_error (f : Fault) : finish (.error f) = .fault f := rfl

/-! ### Call stack -/

/-- A push with room: the slot at SP gets the value, SP is one more, nothing else changes. -/
theorem State.push_of_lt (v : Word) (h : s.sp.val < 16) :
    s.push v = some ((s.setSlot ⟨s.sp.val, h⟩ v).setSP ⟨s.sp.val + 1, by omega⟩) := by
  simp [State.push, h]

/-- A push on a full stack. -/
theorem State.push_of_full (v : Word) (h : s.sp.val = 16) : s.push v = none := by
  simp [State.push, h]

/-- A pop with an entry: the slot below SP, and SP one less. -/
theorem State.pop_of_pos (h : 0 < s.sp.val) :
    s.pop = some (s.stack[s.sp.val - 1]'(by omega), s.setSP ⟨s.sp.val - 1, by omega⟩) := by
  have h' : ¬ s.sp.val = 0 := by omega
  simp only [State.pop, h', dite_false]

/-- A pop of an empty stack. -/
theorem State.pop_of_empty (h : s.sp.val = 0) : s.pop = none := by
  simp [State.pop, h]

/-! ### Memory accesses -/

/-- MemRead inside the memory (R57). -/
theorem State.memRead_ok (addr n : Nat) (h : addr + n ≤ 4096 ∨ n = 0) :
    s.memRead addr n = .ok ((List.range' addr n).map s.readByte) := by
  simp [State.memRead, Memory.firstOutside_eq, h, Memory.span]

/-- MemRead that leaves the memory (R57). -/
theorem State.memRead_fault (addr n : Nat) (h : 4096 < addr + n) (hn : n ≠ 0) :
    s.memRead addr n = .error (.memoryRange (max addr 4096)) := by
  have : ¬ addr + n ≤ 4096 := by omega
  simp [State.memRead, Memory.firstOutside_eq, this, hn]

/-- MemWrite on this hardware, inside the memory and outside the font (R58). -/
theorem State.memWrite_ok (addr : Nat) (bs : List Byte) (h : addr + bs.length ≤ 4096) (hf : 80 ≤ addr) :
    s.memWrite .fault addr bs = .ok (s.setMem (Memory.writeBytes s.mem addr bs)) := by
  simp [State.memWrite, Memory.firstOutside_eq, h, Memory.firstInFont_eq, hf]

/-- MemWrite that leaves the memory, under every policy (R58). -/
theorem State.memWrite_range (p : Config.FontWritePolicy) (addr : Nat) (bs : List Byte)
    (h : 4096 < addr + bs.length) (hn : bs ≠ []) :
    s.memWrite p addr bs = .error (.memoryRange (max addr 4096)) := by
  have h1 : ¬ addr + bs.length ≤ 4096 := by omega
  have h2 : ¬ bs = [] := hn
  simp [State.memWrite, Memory.firstOutside_eq, h1, h2]

/-- MemWrite into the font on this hardware (R58). -/
theorem State.memWrite_font (addr : Nat) (bs : List Byte) (h : addr < 80) (hl : bs.length ≤ 16) (hn : bs ≠ []) :
    s.memWrite .fault addr bs = .error (.fontWrite addr) := by
  have h1 : addr + bs.length ≤ 4096 := by omega
  have h2 : ¬ 80 ≤ addr := by omega
  have h3 : ¬ bs = [] := hn
  simp [State.memWrite, Memory.firstOutside_eq, h1, Memory.firstInFont_eq, h2, h3]

/-- Everything MemWrite can do on this hardware: it writes outside the font and inside the memory, or it faults. -/
theorem State.memWrite_cases (addr : Nat) (bs : List Byte) (hn : bs ≠ []) :
    (80 ≤ addr ∧ addr + bs.length ≤ 4096 ∧
      s.memWrite .fault addr bs = .ok (s.setMem (Memory.writeBytes s.mem addr bs))) ∨
    (4096 < addr + bs.length ∧ s.memWrite .fault addr bs = .error (.memoryRange (max addr 4096))) ∨
    (addr < 80 ∧ addr + bs.length ≤ 4096 ∧ s.memWrite .fault addr bs = .error (.fontWrite addr)) := by
  by_cases h : addr + bs.length ≤ 4096
  · by_cases hf : 80 ≤ addr
    · exact .inl ⟨hf, h, s.memWrite_ok addr bs h hf⟩
    · refine .inr (.inr ⟨by omega, h, ?_⟩)
      simp [State.memWrite, Memory.firstOutside_eq, h, Memory.firstInFont_eq, hf, hn]
  · exact .inr (.inl ⟨by omega, s.memWrite_range .fault addr bs (by omega) hn⟩)

theorem State.readByte_writeBytes (addr : Nat) (bs : List Byte) (a : Nat) :
    (s.setMem (Memory.writeBytes s.mem addr bs)).readByte a =
      if addr ≤ a then bs[a - addr]?.getD (s.readByte a) else s.readByte a :=
  Memory.read_writeBytes bs s.mem addr a

/-! ### Fetch -/

/-- A fetch that stays inside the memory (R81). -/
theorem fetchWord_ok (h : s.pc.toNat + 1 < 4096) :
    fetchWord s = .ok (bigEndian (s.readByte s.pc.toNat) (s.readByte (s.pc.toNat + 1))) := by
  have : s.pc.toNat + 2 ≤ 4096 := by omega
  simp [fetchWord, Memory.firstOutside_eq, this]

/-- A fetch that leaves the memory (R81). -/
theorem fetchWord_fault (h : 4095 ≤ s.pc.toNat) :
    fetchWord s = .error (.memoryRange (max s.pc.toNat 4096)) := by
  have : ¬ s.pc.toNat + 2 ≤ 4096 := by omega
  simp [fetchWord, Memory.firstOutside_eq, this]

/-- Everything a cycle can do (R80): the fetch faults, the word is illegal, or the decoded instruction runs. -/
theorem cycle_cases :
    (4095 ≤ s.pc.toNat ∧ cycle s = .fault (.memoryRange (max s.pc.toNat 4096))) ∨
    (∃ w e, Fetches s w ∧ decode w = .error e ∧ cycle s = .fault (.decodeFault w s.pc)) ∨
    (∃ w i, Fetches s w ∧ decode w = .ok i ∧ cycle s = exec i s.advance) := by
  by_cases h : 4095 ≤ s.pc.toNat
  · exact .inl ⟨h, by simp [cycle, fetchWord_fault s h]⟩
  · have hlt : s.pc.toNat + 1 < 4096 := by omega
    have hf := fetchWord_ok s hlt
    cases hd : decode (bigEndian (s.readByte s.pc.toNat) (s.readByte (s.pc.toNat + 1))) with
    | error e => exact .inr (.inl ⟨_, e, ⟨hlt, rfl⟩, hd, by simp [cycle, hf, hd]⟩)
    | ok i => exact .inr (.inr ⟨_, i, ⟨hlt, rfl⟩, hd, by simp [cycle, hf, hd]⟩)

/-- The step with nothing in the script is a cycle. -/
theorem step_of_quiet (h : s.script = []) : step s = cycle s := by
  obtain ⟨⟩ := s
  subst h
  rfl

/-- The step with a command in the script runs it. -/
theorem step_of_cons (c : HostCommand) (cs : List HostCommand) (h : s.script = c :: cs) :
    step s = runCommand c { s with script := cs } := by
  obtain ⟨⟩ := s
  subst h
  rfl

/-! ### Host commands -/

@[simp] theorem orUnchanged_ok (t : State) : orUnchanged s (.ok t) = t := rfl
@[simp] theorem orUnchanged_error (f : CommandFault) : orUnchanged s (.error f) = s := rfl

/-- A load that fits (R221). -/
theorem loadImage_ok (bytes : List Byte) (h : bytes.length ≤ 3584) :
    loadImage bytes s = .ok (s.setMem (Memory.writeBytes s.mem 0x200 bytes)) := by
  have : ¬ 3584 < bytes.length := by omega
  simp [loadImage, this]

/-- A load that does not (R208). -/
theorem loadImage_refused (bytes : List Byte) (h : 3584 < bytes.length) :
    loadImage bytes s = .error (.loadSize bytes.length) := by
  simp [loadImage, h]

/-- A key command on a key that exists (R223). -/
theorem keyCommand_ok (k : Fin 16) (b : Bool) : keyCommand k.val b s = .ok (s.setKey k b) := by
  simp [keyCommand]

/-- A key command on one that does not (R209). -/
theorem keyCommand_refused (k : Nat) (b : Bool) (h : 15 < k) : keyCommand k b s = .error (.keyIdRange k) := by
  have : ¬ k < 16 := by omega
  simp [keyCommand, this]

/-- Everything a command can do: a cycle runs, and any other command answers a next state. -/
theorem runCommand_cases (c : HostCommand) : runCommand c s = cycle s ∨ ∃ t, runCommand c s = .next t := by
  cases c
  case cycle => exact .inl rfl
  all_goals exact .inr ⟨_, rfl⟩

/-! ### Runs -/

/-- A run of no steps. -/
theorem run_zero : Host.Core.run Sys2Proof.core 0 s = .next s := rfl

/-- A run whose first step answers a next state goes on from it. -/
theorem run_succ_of_next (k : Nat) (t : State) (h : step s = .next t) :
    Host.Core.run Sys2Proof.core (k + 1) s = Host.Core.run Sys2Proof.core k t := by
  have h' : Sys2Proof.core.step s = .next t := h
  simp [Host.Core.run, h']

/-! ### Flags -/

@[simp] theorem flagByte_true : flagByte true = 1#8 := rfl
@[simp] theorem flagByte_false : flagByte false = 0#8 := rfl

/-- What WriteRF leaves in each register, under either order (R133). -/
theorem getV_writeRF (o : Config.VfDestOrder) (x y : Nibble) (res : Byte) (f : Bool) :
    (writeRF o x res f s).getV y =
      match o with
      | .flagLast => if y = vf then flagByte f else if y = x then res else s.getV y
      | .resultLast => if y = x then res else if y = vf then flagByte f else s.getV y := by
  cases o <;> simp [writeRF, State.getV_setV]

/-- WriteRF changes registers only. -/
theorem writeRF_eq (o : Config.VfDestOrder) (x : Nibble) (res : Byte) (f : Bool) :
    writeRF o x res f s = { s with regs := (writeRF o x res f s).regs } := by
  cases o <;> rfl

/-! ### WriteRF and the drawing step, field by field -/

@[simp] theorem writeRF_pc (o : Config.VfDestOrder) (x : Nibble) (res : Byte) (f : Bool) :
    (writeRF o x res f s).pc = s.pc := by cases o <;> rfl
@[simp] theorem writeRF_i (o : Config.VfDestOrder) (x : Nibble) (res : Byte) (f : Bool) :
    (writeRF o x res f s).i = s.i := by cases o <;> rfl
@[simp] theorem writeRF_stack (o : Config.VfDestOrder) (x : Nibble) (res : Byte) (f : Bool) :
    (writeRF o x res f s).stack = s.stack := by cases o <;> rfl
@[simp] theorem writeRF_sp (o : Config.VfDestOrder) (x : Nibble) (res : Byte) (f : Bool) :
    (writeRF o x res f s).sp = s.sp := by cases o <;> rfl
@[simp] theorem writeRF_dt (o : Config.VfDestOrder) (x : Nibble) (res : Byte) (f : Bool) :
    (writeRF o x res f s).dt = s.dt := by cases o <;> rfl
@[simp] theorem writeRF_st (o : Config.VfDestOrder) (x : Nibble) (res : Byte) (f : Bool) :
    (writeRF o x res f s).st = s.st := by cases o <;> rfl
@[simp] theorem writeRF_keys (o : Config.VfDestOrder) (x : Nibble) (res : Byte) (f : Bool) :
    (writeRF o x res f s).keys = s.keys := by cases o <;> rfl
@[simp] theorem writeRF_fb (o : Config.VfDestOrder) (x : Nibble) (res : Byte) (f : Bool) :
    (writeRF o x res f s).fb = s.fb := by cases o <;> rfl
@[simp] theorem writeRF_mem (o : Config.VfDestOrder) (x : Nibble) (res : Byte) (f : Bool) :
    (writeRF o x res f s).mem = s.mem := by cases o <;> rfl
@[simp] theorem writeRF_script (o : Config.VfDestOrder) (x : Nibble) (res : Byte) (f : Bool) :
    (writeRF o x res f s).script = s.script := by cases o <;> rfl
@[simp] theorem writeRF_draws (o : Config.VfDestOrder) (x : Nibble) (res : Byte) (f : Bool) :
    (writeRF o x res f s).draws = s.draws := by cases o <;> rfl
@[simp] theorem drawRows_pc (o : Config.SpriteBitOrder) (x y : Nibble) (rows : List Byte) :
    (drawRows o x y rows s).pc = s.pc := rfl
@[simp] theorem drawRows_i (o : Config.SpriteBitOrder) (x y : Nibble) (rows : List Byte) :
    (drawRows o x y rows s).i = s.i := rfl
@[simp] theorem drawRows_stack (o : Config.SpriteBitOrder) (x y : Nibble) (rows : List Byte) :
    (drawRows o x y rows s).stack = s.stack := rfl
@[simp] theorem drawRows_sp (o : Config.SpriteBitOrder) (x y : Nibble) (rows : List Byte) :
    (drawRows o x y rows s).sp = s.sp := rfl
@[simp] theorem drawRows_dt (o : Config.SpriteBitOrder) (x y : Nibble) (rows : List Byte) :
    (drawRows o x y rows s).dt = s.dt := rfl
@[simp] theorem drawRows_st (o : Config.SpriteBitOrder) (x y : Nibble) (rows : List Byte) :
    (drawRows o x y rows s).st = s.st := rfl
@[simp] theorem drawRows_keys (o : Config.SpriteBitOrder) (x y : Nibble) (rows : List Byte) :
    (drawRows o x y rows s).keys = s.keys := rfl
@[simp] theorem drawRows_mem (o : Config.SpriteBitOrder) (x y : Nibble) (rows : List Byte) :
    (drawRows o x y rows s).mem = s.mem := rfl
@[simp] theorem drawRows_script (o : Config.SpriteBitOrder) (x y : Nibble) (rows : List Byte) :
    (drawRows o x y rows s).script = s.script := rfl
@[simp] theorem drawRows_draws (o : Config.SpriteBitOrder) (x y : Nibble) (rows : List Byte) :
    (drawRows o x y rows s).draws = s.draws := rfl

/-- What drawing leaves in each register: VF is the collision (R164). -/
theorem getV_drawRows (o : Config.SpriteBitOrder) (x y r : Nibble) (rows : List Byte) :
    (drawRows o x y rows s).getV r =
      if r = vf then flagByte (plot s.fb false (spriteCells o (s.getV x) (s.getV y) 0 rows)).2 else s.getV r := by
  simp only [drawRows, State.getV_setV]
  rfl

/-- The screen after drawing. -/
theorem lit_drawRows (o : Config.SpriteBitOrder) (x y : Nibble) (rows : List Byte) (p : CellPos) :
    (drawRows o x y rows s).lit p =
      Grid.lit (plot s.fb false (spriteCells o (s.getV x) (s.getV y) 0 rows)).1 p := rfl

/-! ### Keypad -/

/-- The key of a skip (R172). -/
theorem keyOperand_ok (x : Nibble) (h : (s.getV x).toNat < 16) :
    keyOperand s x = .ok ⟨(s.getV x).toNat, h⟩ := by
  simp [keyOperand, h]

theorem keyOperand_fault (x : Nibble) (h : 15 < (s.getV x).toNat) :
    keyOperand s x = .error (.keyIndex (s.getV x)) := by
  have : ¬ (s.getV x).toNat < 16 := by omega
  simp [keyOperand, this]

/-- No key is pressed. -/
theorem lowestKey_none : s.lowestKey = none ↔ ∀ k, s.key k = false := by
  simp [State.lowestKey]

/-- The key found is pressed (R173). -/
theorem lowestKey_pressed (k : Fin 16) (h : s.lowestKey = some k) : s.key k = true :=
  List.find?_some h

/-! ### Framebuffer -/

/-- Plotting distinct cells toggles exactly those, and collides when one of them was lit before (R164). -/
theorem plot_nodup (g : Grid) (c : Bool) (ps : List CellPos) (h : ps.Nodup) :
    (∀ q, Grid.lit (plot g c ps).1 q = if q ∈ ps then !Grid.lit g q else Grid.lit g q) ∧
    (plot g c ps).2 = (c || ps.any (Grid.lit g)) := by
  induction ps generalizing g c with
  | nil => simp [plot]
  | cons p ps ih =>
    have hp := List.nodup_cons.mp h
    obtain ⟨h1, h2⟩ := ih (Grid.toggle g p) (c || Grid.lit g p) hp.2
    constructor
    · intro q
      rw [plot, h1, Grid.lit_toggle]
      by_cases hq : q = p
      · subst hq; simp [hp.1]
      · simp [hq]
    · rw [plot, h2]
      have : ps.any (Grid.lit (Grid.toggle g p)) = ps.any (Grid.lit g) := by
        rw [Bool.eq_iff_iff, List.any_eq_true, List.any_eq_true]
        constructor
        · rintro ⟨q, hq, hl⟩
          have : q ≠ p := fun e => hp.1 (e ▸ hq)
          exact ⟨q, hq, by simpa [Grid.lit_toggle, this] using hl⟩
        · rintro ⟨q, hq, hl⟩
          have : q ≠ p := fun e => hp.1 (e ▸ hq)
          exact ⟨q, hq, by simpa [Grid.lit_toggle, this] using hl⟩
      rw [this, List.any_cons, Bool.or_assoc]

end Sys2Proof.Machine
end

