-- ==== Sys2Proof/Laws/Operands.lean ====
section
/-! SUPPORT. The operand forms: the lengths of stored blocks, and the cells a sprite covers, each once. -/

namespace Sys2Proof.Machine

/-! ### Blocks and digits -/

@[simp] theorem bcd3_length (v : Byte) : (bcd3 v).length = 3 := rfl

theorem bcd3_ne_nil (v : Byte) : bcd3 v ≠ [] := by simp [bcd3]

@[simp] theorem regBlock_length (s : State) (x : Nibble) : (regBlock s x).length = x.toNat + 1 := by
  have := x.isLt
  simp [regBlock, blockLen]
  omega

theorem regBlock_ne_nil (s : State) (x : Nibble) : regBlock s x ≠ [] := by
  intro h
  simpa using congrArg List.length h

/-- The k-th byte of the block is `V[k]` (R146). -/
theorem regBlock_get (s : State) (x k : Nibble) (h : k.toNat ≤ x.toNat) :
    (regBlock s x)[k.toNat]? = some (s.getV k) := by
  have h' : k.toNat < blockLen x := by simp only [blockLen]; omega
  rw [regBlock, List.getElem?_take_of_lt h', List.getElem?_eq_getElem (by simpa using k.isLt)]
  rfl

/-! ### The cells of a sprite (msb_first) -/

theorem mem_rowCells (cx cy : Byte) (r : Nat) (row : Byte) (p : CellPos) :
    p ∈ rowCells .msbFirst cx cy r row ↔
      ∃ col, col < 8 ∧ row.getLsbD (7 - col) = true ∧ p = spriteCell cx cy r col := by
  simp only [rowCells, List.mem_map, List.mem_filter, List.mem_range, spriteBit]
  exact ⟨fun ⟨c, ⟨h, h'⟩, e⟩ => ⟨c, h, h', e.symm⟩, fun ⟨c, h, h', e⟩ => ⟨c, ⟨h, h'⟩, e.symm⟩⟩

/-- A cell is in the list exactly when a set bit of one of the rows falls on it (R161 to R163). -/
theorem mem_spriteCells (cx cy : Byte) (rows : List Byte) (r0 : Nat) (p : CellPos) :
    p ∈ spriteCells .msbFirst cx cy r0 rows ↔
      ∃ r, ∃ h : r < rows.length, ∃ col, col < 8 ∧ rows[r].getLsbD (7 - col) = true ∧
        p = spriteCell cx cy (r0 + r) col := by
  induction rows generalizing r0 with
  | nil => simp [spriteCells]
  | cons row rows ih =>
    rw [spriteCells, List.mem_append, ih, mem_rowCells]
    constructor
    · rintro (⟨c, h, h', e⟩ | ⟨r, h, c, h1, h2, e⟩)
      · exact ⟨0, by simp, c, h, h', e⟩
      · exact ⟨r + 1, by simp [h], c, h1, by simpa using h2, by rw [e]; congr 1; omega⟩
    · rintro ⟨r, h, c, h1, h2, e⟩
      cases r with
      | zero => exact .inl ⟨c, h1, by simpa using h2, e⟩
      | succ r => exact .inr ⟨r, by simpa using h, c, h1, by simpa using h2, by rw [e]; congr 1; omega⟩

/-- Within 15 rows no two sprite bits share a cell. -/
theorem spriteCell_inj (cx cy : Byte) (r0 r c r' c' : Nat) (h : spriteCell cx cy r c = spriteCell cx cy r' c')
    (hr : r0 ≤ r ∧ r < r0 + 15) (hr' : r0 ≤ r' ∧ r' < r0 + 15) (hc : c < 8) (hc' : c' < 8) : r = r' ∧ c = c' := by
  simp [spriteCell, Fin.ext_iff] at h
  omega

theorem rowCells_nodup (cx cy : Byte) (r : Nat) (row : Byte) : (rowCells .msbFirst cx cy r row).Nodup := by
  refine List.Nodup.map_on ?_ (List.Nodup.filter _ List.nodup_range)
  intro a ha b hb e
  simp only [List.mem_filter, List.mem_range] at ha hb
  exact (spriteCell_inj cx cy r r a r b e (by omega) (by omega) ha.1 hb.1).2

/-- The cells of a sprite are distinct, so `plot_nodup` says what drawing it does. -/
theorem spriteCells_nodup (cx cy : Byte) (rows : List Byte) (r0 : Nat) (h : rows.length ≤ 15) :
    (spriteCells .msbFirst cx cy r0 rows).Nodup := by
  induction rows generalizing r0 with
  | nil => simp [spriteCells]
  | cons row rows ih =>
    simp only [List.length_cons] at h
    refine List.Nodup.append (rowCells_nodup _ _ _ _) (ih _ (by omega)) ?_
    intro p hp hq
    rw [mem_rowCells] at hp
    rw [mem_spriteCells] at hq
    obtain ⟨c, h1, _, e⟩ := hp
    obtain ⟨r, h3, c', h4, _, e'⟩ := hq
    have := spriteCell_inj cx cy r0 _ _ _ _ (e.symm.trans e') (by omega) (by omega) h1 h4
    omega

end Sys2Proof.Machine
end

