-- ==== Sys2Proof/Laws/PerInstr.lean ====
section
/-! SUPPORT. Laws that hold of every instruction as syntax, one lemma per constructor. -/

namespace Sys2Proof.Laws.RowFits

/-- The word of an instruction matches the mask and pattern of its own row of 30_encoding.md R73. -/
def Statement (i : Instr) : Prop := encode i &&& i.row.mask = i.row.pattern

theorem noOp (nnn : Addr12) : Statement (.noOp nnn) := by
  apply BitVec.eq_of_getLsbD_eq; intro k hk
  simp only [encode, Instr.row, BitVec.getLsbD_and, getLsbD_encAddr]
  interval_cases k <;> simp
theorem clearScreen : Statement .clearScreen := by unfold Statement; decide
theorem ret : Statement .ret := by unfold Statement; decide
theorem jump (nnn : Addr12) : Statement (.jump nnn) := by
  apply BitVec.eq_of_getLsbD_eq; intro k hk
  simp only [encode, Instr.row, BitVec.getLsbD_and, getLsbD_encAddr]
  interval_cases k <;> simp
theorem call (nnn : Addr12) : Statement (.call nnn) := by
  apply BitVec.eq_of_getLsbD_eq; intro k hk
  simp only [encode, Instr.row, BitVec.getLsbD_and, getLsbD_encAddr]
  interval_cases k <;> simp
theorem skipEqImm (x : Nibble) (nn : Byte) : Statement (.skipEqImm x nn) := by
  apply BitVec.eq_of_getLsbD_eq; intro k hk
  simp only [encode, Instr.row, BitVec.getLsbD_and, getLsbD_encXNN]
  interval_cases k <;> simp
theorem skipNeImm (x : Nibble) (nn : Byte) : Statement (.skipNeImm x nn) := by
  apply BitVec.eq_of_getLsbD_eq; intro k hk
  simp only [encode, Instr.row, BitVec.getLsbD_and, getLsbD_encXNN]
  interval_cases k <;> simp
theorem skipEqReg (x y : Nibble) : Statement (.skipEqReg x y) := by
  apply BitVec.eq_of_getLsbD_eq; intro k hk
  simp only [encode, Instr.row, BitVec.getLsbD_and, getLsbD_encXYN]
  interval_cases k <;> simp
theorem setImm (x : Nibble) (nn : Byte) : Statement (.setImm x nn) := by
  apply BitVec.eq_of_getLsbD_eq; intro k hk
  simp only [encode, Instr.row, BitVec.getLsbD_and, getLsbD_encXNN]
  interval_cases k <;> simp
theorem addImm (x : Nibble) (nn : Byte) : Statement (.addImm x nn) := by
  apply BitVec.eq_of_getLsbD_eq; intro k hk
  simp only [encode, Instr.row, BitVec.getLsbD_and, getLsbD_encXNN]
  interval_cases k <;> simp
theorem setReg (x y : Nibble) : Statement (.setReg x y) := by
  apply BitVec.eq_of_getLsbD_eq; intro k hk
  simp only [encode, Instr.row, BitVec.getLsbD_and, getLsbD_encXYN]
  interval_cases k <;> simp
theorem orReg (x y : Nibble) : Statement (.orReg x y) := by
  apply BitVec.eq_of_getLsbD_eq; intro k hk
  simp only [encode, Instr.row, BitVec.getLsbD_and, getLsbD_encXYN]
  interval_cases k <;> simp
theorem andReg (x y : Nibble) : Statement (.andReg x y) := by
  apply BitVec.eq_of_getLsbD_eq; intro k hk
  simp only [encode, Instr.row, BitVec.getLsbD_and, getLsbD_encXYN]
  interval_cases k <;> simp
theorem xorReg (x y : Nibble) : Statement (.xorReg x y) := by
  apply BitVec.eq_of_getLsbD_eq; intro k hk
  simp only [encode, Instr.row, BitVec.getLsbD_and, getLsbD_encXYN]
  interval_cases k <;> simp
theorem addReg (x y : Nibble) : Statement (.addReg x y) := by
  apply BitVec.eq_of_getLsbD_eq; intro k hk
  simp only [encode, Instr.row, BitVec.getLsbD_and, getLsbD_encXYN]
  interval_cases k <;> simp
theorem subReg (x y : Nibble) : Statement (.subReg x y) := by
  apply BitVec.eq_of_getLsbD_eq; intro k hk
  simp only [encode, Instr.row, BitVec.getLsbD_and, getLsbD_encXYN]
  interval_cases k <;> simp
theorem shiftRight (x : Nibble) : Statement (.shiftRight x) := by
  apply BitVec.eq_of_getLsbD_eq; intro k hk
  simp only [encode, Instr.row, BitVec.getLsbD_and, getLsbD_encXYN]
  interval_cases k <;> simp
theorem subRegRev (x y : Nibble) : Statement (.subRegRev x y) := by
  apply BitVec.eq_of_getLsbD_eq; intro k hk
  simp only [encode, Instr.row, BitVec.getLsbD_and, getLsbD_encXYN]
  interval_cases k <;> simp
theorem shiftLeft (x : Nibble) : Statement (.shiftLeft x) := by
  apply BitVec.eq_of_getLsbD_eq; intro k hk
  simp only [encode, Instr.row, BitVec.getLsbD_and, getLsbD_encXYN]
  interval_cases k <;> simp
theorem skipNeReg (x y : Nibble) : Statement (.skipNeReg x y) := by
  apply BitVec.eq_of_getLsbD_eq; intro k hk
  simp only [encode, Instr.row, BitVec.getLsbD_and, getLsbD_encXYN]
  interval_cases k <;> simp
theorem setIndex (nnn : Addr12) : Statement (.setIndex nnn) := by
  apply BitVec.eq_of_getLsbD_eq; intro k hk
  simp only [encode, Instr.row, BitVec.getLsbD_and, getLsbD_encAddr]
  interval_cases k <;> simp
theorem jumpOffset (nnn : Addr12) : Statement (.jumpOffset nnn) := by
  apply BitVec.eq_of_getLsbD_eq; intro k hk
  simp only [encode, Instr.row, BitVec.getLsbD_and, getLsbD_encAddr]
  interval_cases k <;> simp
theorem random (x : Nibble) (nn : Byte) : Statement (.random x nn) := by
  apply BitVec.eq_of_getLsbD_eq; intro k hk
  simp only [encode, Instr.row, BitVec.getLsbD_and, getLsbD_encXNN]
  interval_cases k <;> simp
theorem draw (x y n : Nibble) : Statement (.draw x y n) := by
  apply BitVec.eq_of_getLsbD_eq; intro k hk
  simp only [encode, Instr.row, BitVec.getLsbD_and, getLsbD_encXYN]
  interval_cases k <;> simp
theorem skipIfKey (x : Nibble) : Statement (.skipIfKey x) := by
  apply BitVec.eq_of_getLsbD_eq; intro k hk
  simp only [encode, Instr.row, BitVec.getLsbD_and, getLsbD_encXNN]
  interval_cases k <;> simp
theorem skipIfNotKey (x : Nibble) : Statement (.skipIfNotKey x) := by
  apply BitVec.eq_of_getLsbD_eq; intro k hk
  simp only [encode, Instr.row, BitVec.getLsbD_and, getLsbD_encXNN]
  interval_cases k <;> simp
theorem readDelay (x : Nibble) : Statement (.readDelay x) := by
  apply BitVec.eq_of_getLsbD_eq; intro k hk
  simp only [encode, Instr.row, BitVec.getLsbD_and, getLsbD_encXNN]
  interval_cases k <;> simp
theorem waitKey (x : Nibble) : Statement (.waitKey x) := by
  apply BitVec.eq_of_getLsbD_eq; intro k hk
  simp only [encode, Instr.row, BitVec.getLsbD_and, getLsbD_encXNN]
  interval_cases k <;> simp
theorem setDelay (x : Nibble) : Statement (.setDelay x) := by
  apply BitVec.eq_of_getLsbD_eq; intro k hk
  simp only [encode, Instr.row, BitVec.getLsbD_and, getLsbD_encXNN]
  interval_cases k <;> simp
theorem setSound (x : Nibble) : Statement (.setSound x) := by
  apply BitVec.eq_of_getLsbD_eq; intro k hk
  simp only [encode, Instr.row, BitVec.getLsbD_and, getLsbD_encXNN]
  interval_cases k <;> simp
theorem addIndex (x : Nibble) : Statement (.addIndex x) := by
  apply BitVec.eq_of_getLsbD_eq; intro k hk
  simp only [encode, Instr.row, BitVec.getLsbD_and, getLsbD_encXNN]
  interval_cases k <;> simp
theorem setIndexFont (x : Nibble) : Statement (.setIndexFont x) := by
  apply BitVec.eq_of_getLsbD_eq; intro k hk
  simp only [encode, Instr.row, BitVec.getLsbD_and, getLsbD_encXNN]
  interval_cases k <;> simp
theorem storeBcd (x : Nibble) : Statement (.storeBcd x) := by
  apply BitVec.eq_of_getLsbD_eq; intro k hk
  simp only [encode, Instr.row, BitVec.getLsbD_and, getLsbD_encXNN]
  interval_cases k <;> simp
theorem storeRegs (x : Nibble) : Statement (.storeRegs x) := by
  apply BitVec.eq_of_getLsbD_eq; intro k hk
  simp only [encode, Instr.row, BitVec.getLsbD_and, getLsbD_encXNN]
  interval_cases k <;> simp
theorem loadRegs (x : Nibble) : Statement (.loadRegs x) := by
  apply BitVec.eq_of_getLsbD_eq; intro k hk
  simp only [encode, Instr.row, BitVec.getLsbD_and, getLsbD_encXNN]
  interval_cases k <;> simp

end Sys2Proof.Laws.RowFits
end

