-- ==== Sys2Proof/Tests/Slice0.lean ====
section
/-! SUPPORT. The author's own tests: expected values are the vectors of 95_test_vectors.md (the id stands before each), words are written out from 30_encoding.md R73. Then a witness for every obligation that has hypotheses. -/

namespace Sys2Proof.Tests

open Sys2Proof.Machine

/-! ### Helpers -/

/-- The word placed at 0x200, where the first cycle after reset fetches. -/
def placed (w : Nat) (s : State) : State := s.withFetchWord 16 w

/-- Bytes in memory. -/
def poke (a : Nat) (bs : List Byte) (s : State) : State := s.setMem (Memory.writeBytes s.mem a bs)

/-- Two registers. -/
def two (x : Nibble) (v : Byte) (y : Nibble) (u : Byte) : State := (State.reset.setV x v).setV y u

/-- The outcome is a next state with a property. -/
def goes (r : Result) (p : State → Bool) : Bool :=
  match r with
  | .next t => p t
  | .fault _ => false
  | .refused _ => false

/-- The outcome is this fault. -/
def faults (r : Result) (f : Fault) : Bool :=
  match r with
  | .next _ => false
  | .fault g => decide (g = f)
  | .refused _ => false

/-! ### WellFormed refuses ill-formed terms (R74, R76) -/

theorem test_wf_refuses_clearScreen_word : (Instr.noOp 0x0E0#12).wf = false := by decide
theorem test_wf_refuses_return_word : (Instr.noOp 0x0EE#12).wf = false := by decide
theorem test_wf_zeroOnly_refuses : (Instr.noOp 0x123#12).wfWith .zeroOnly = false := by decide
theorem test_wf_accepts : (Instr.noOp 0x123#12).wf = true ∧ (Instr.noOp 0#12).wfWith .zeroOnly = true := by decide

/-! ### Decoding, every constructor (vectors D; R73) -/

theorem test_decode_sys :
    decode 0x0000#16 = .ok (.noOp 0x000#12) ∧ decode 0x00E0#16 = .ok .clearScreen ∧ decode 0x00EE#16 = .ok .ret ∧
    decode 0x0123#16 = .ok (.noOp 0x123#12) ∧ decode 0x00FF#16 = .ok (.noOp 0x0FF#12) ∧
    decode 0x00E1#16 = .ok (.noOp 0x0E1#12) := by decide

theorem test_decode_zeroOnly :
    decodeWith .zeroOnly 0x0000#16 = .ok (.noOp 0#12) ∧ decodeWith .zeroOnly 0x00EE#16 = .ok .ret ∧
    decodeWith .zeroOnly 0x0123#16 = .error (.illegalWord 0x0123#16) := by decide

theorem test_decode_control :
    decode 0x1ABC#16 = .ok (.jump 0xABC#12) ∧ decode 0x2FFF#16 = .ok (.call 0xFFF#12) ∧
    decode 0x3A3F#16 = .ok (.skipEqImm 10#4 0x3F#8) ∧ decode 0x4B00#16 = .ok (.skipNeImm 11#4 0x00#8) ∧
    decode 0x5120#16 = .ok (.skipEqReg 1#4 2#4) ∧ decode 0x9120#16 = .ok (.skipNeReg 1#4 2#4) ∧
    decode 0xBFFF#16 = .ok (.jumpOffset 0xFFF#12) := by decide

theorem test_decode_alu :
    decode 0x6A3F#16 = .ok (.setImm 10#4 0x3F#8) ∧ decode 0x7F01#16 = .ok (.addImm 15#4 0x01#8) ∧
    decode 0x8120#16 = .ok (.setReg 1#4 2#4) ∧ decode 0x8121#16 = .ok (.orReg 1#4 2#4) ∧
    decode 0x8122#16 = .ok (.andReg 1#4 2#4) ∧ decode 0x8123#16 = .ok (.xorReg 1#4 2#4) ∧
    decode 0x8124#16 = .ok (.addReg 1#4 2#4) ∧ decode 0x8125#16 = .ok (.subReg 1#4 2#4) ∧
    decode 0x8126#16 = .ok (.shiftRight 1#4) ∧ decode 0x8127#16 = .ok (.subRegRev 1#4 2#4) ∧
    decode 0x812E#16 = .ok (.shiftLeft 1#4) ∧ decode 0xC0FF#16 = .ok (.random 0#4 0xFF#8) := by decide

theorem test_decode_index_memory :
    decode 0xA123#16 = .ok (.setIndex 0x123#12) ∧ decode 0xF11E#16 = .ok (.addIndex 1#4) ∧
    decode 0xF129#16 = .ok (.setIndexFont 1#4) ∧ decode 0xF133#16 = .ok (.storeBcd 1#4) ∧
    decode 0xF155#16 = .ok (.storeRegs 1#4) ∧ decode 0xF165#16 = .ok (.loadRegs 1#4) := by decide

theorem test_decode_display_keys_timers :
    decode 0xD12F#16 = .ok (.draw 1#4 2#4 15#4) ∧ decode 0xD120#16 = .ok (.draw 1#4 2#4 0#4) ∧
    decode 0xE19E#16 = .ok (.skipIfKey 1#4) ∧ decode 0xE1A1#16 = .ok (.skipIfNotKey 1#4) ∧
    decode 0xF107#16 = .ok (.readDelay 1#4) ∧ decode 0xF10A#16 = .ok (.waitKey 1#4) ∧
    decode 0xF115#16 = .ok (.setDelay 1#4) ∧ decode 0xF118#16 = .ok (.setSound 1#4) := by decide

theorem test_decode_rejects :
    decode 0x5121#16 = .error (.illegalWord 0x5121#16) ∧ decode 0x8128#16 = .error (.illegalWord 0x8128#16) ∧
    decode 0x812F#16 = .error (.illegalWord 0x812F#16) ∧ decode 0x912F#16 = .error (.illegalWord 0x912F#16) ∧
    decode 0xE19F#16 = .error (.illegalWord 0xE19F#16) ∧ decode 0xE000#16 = .error (.illegalWord 0xE000#16) ∧
    decode 0xF130#16 = .error (.illegalWord 0xF130#16) ∧ decode 0xF175#16 = .error (.illegalWord 0xF175#16) ∧
    decode 0xF000#16 = .error (.illegalWord 0xF000#16) ∧ decode 0xFFFF#16 = .error (.illegalWord 0xFFFF#16) := by decide

theorem test_decode_bytes :
    decodeBytes [0x1A#8, 0xBC#8, 0x77#8] = .ok (.jump 0xABC#12, [0x77#8]) ∧ decodeBytes [0x1A#8] = .error .truncated := by
  decide

/-! ### One step each (vectors C, A, M, G, K) -/

/-- C1. -/
theorem test_noOp : goes (step (placed 0x0000 State.reset)) (fun t => t.pc == 0x202#16) = true := by decide
/-- C4. -/
theorem test_jump : goes (step (placed 0x1ABC State.reset)) (fun t => t.pc == 0xABC#16) = true := by decide
/-- C6. -/
theorem test_call :
    goes (step (placed 0x2300 (State.reset.setPc 0x204#16)))
      (fun t => t.pc == 0x300#16 && t.sp == 1 && t.stack[0] == 0x206#16) = true := by decide
/-- C9. -/
theorem test_call_full :
    faults (step (placed 0x2300 (State.reset.setSP 16))) (.stackOverflow 0x200#16) = true := by decide
/-- C7. -/
theorem test_ret :
    goes (step (placed 0x00EE ((State.reset.setSlot 0 0x206#16).setSP 1)))
      (fun t => t.pc == 0x206#16 && t.sp == 0 && t.stack[0] == 0x206#16) = true := by decide
/-- C10. -/
theorem test_ret_empty : faults (step (placed 0x00EE State.reset)) (.stackUnderflow 0x200#16) = true := by decide
/-- C11, C12. -/
theorem test_skipEqImm :
    goes (step (placed 0x3142 (State.reset.setV 1#4 0x42#8))) (fun t => t.pc == 0x204#16) = true ∧
    goes (step (placed 0x3143 (State.reset.setV 1#4 0x42#8))) (fun t => t.pc == 0x202#16) = true := by decide
/-- C13, C14. -/
theorem test_skipNeImm :
    goes (step (placed 0x4142 (State.reset.setV 1#4 0x42#8))) (fun t => t.pc == 0x202#16) = true ∧
    goes (step (placed 0x4143 (State.reset.setV 1#4 0x42#8))) (fun t => t.pc == 0x204#16) = true := by decide
/-- C15, C16. -/
theorem test_skipEqReg :
    goes (step (placed 0x5120 (two 1#4 0x07#8 2#4 0x07#8))) (fun t => t.pc == 0x204#16) = true ∧
    goes (step (placed 0x5120 (two 1#4 0x07#8 2#4 0x08#8))) (fun t => t.pc == 0x202#16) = true := by decide
/-- C18, C19. -/
theorem test_skipNeReg :
    goes (step (placed 0x9120 (two 1#4 0x07#8 2#4 0x08#8))) (fun t => t.pc == 0x204#16) = true ∧
    goes (step (placed 0x9120 (two 1#4 0x07#8 2#4 0x07#8))) (fun t => t.pc == 0x202#16) = true := by decide
/-- C22: the target is not masked. -/
theorem test_jumpOffset :
    goes (step (placed 0xBFFF (State.reset.setV 0#4 0xFF#8))) (fun t => t.pc == 0x10FE#16) = true := by decide
/-- C17. -/
theorem test_illegal_word : faults (step (placed 0x5121 State.reset)) (.decodeFault 0x5121#16 0x200#16) = true := by decide
/-- C24, C25. -/
theorem test_fetch_end :
    goes (step (State.reset.setPc 0xFFE#16)) (fun t => t.pc == 0x1000#16) = true ∧
    faults (step (State.reset.setPc 0xFFF#16)) (.memoryRange 0x1000) = true := by decide

/-- A1. -/
theorem test_setImm : goes (step (placed 0x6A3F State.reset)) (fun t => t.getV 10#4 == 0x3F#8) = true := by decide
/-- A2. -/
theorem test_addImm_keeps_VF :
    goes (step (placed 0x7220 (two 2#4 0xF0#8 15#4 0x07#8))) (fun t => t.getV 2#4 == 0x10#8 && t.getV 15#4 == 0x07#8) = true := by
  decide
/-- A5. -/
theorem test_setReg : goes (step (placed 0x8150 (State.reset.setV 5#4 0x42#8))) (fun t => t.getV 1#4 == 0x42#8) = true := by
  decide
/-- A6. -/
theorem test_orReg_keeps_VF :
    goes (step (placed 0x8121 ((two 1#4 0x0F#8 2#4 0xF0#8).setV 15#4 1#8)))
      (fun t => t.getV 1#4 == 0xFF#8 && t.getV 15#4 == 1#8) = true := by decide
/-- A6b. -/
theorem test_andReg : goes (step (placed 0x8122 (two 1#4 0x3C#8 2#4 0x0F#8))) (fun t => t.getV 1#4 == 0x0C#8) = true := by decide
/-- A7. -/
theorem test_xorReg_self : goes (step (placed 0x8113 (State.reset.setV 1#4 0x3C#8))) (fun t => t.getV 1#4 == 0#8) = true := by
  decide
/-- A8. -/
theorem test_addReg_carry :
    goes (step (placed 0x8124 (two 1#4 0xFA#8 2#4 0x0A#8))) (fun t => t.getV 1#4 == 0x04#8 && t.getV 15#4 == 1#8) = true := by
  decide
/-- A23: x = 15 keeps the flag. -/
theorem test_addReg_into_VF : goes (step (placed 0x8F14 (two 1#4 0x64#8 15#4 0xC8#8))) (fun t => t.getV 15#4 == 1#8) = true := by
  decide
/-- A24: the other order keeps the result. -/
theorem test_resultLast : (writeRF .resultLast 15#4 0x2C#8 true State.reset).getV 15#4 = 0x2C#8 := by decide
/-- A13. -/
theorem test_subReg_borrow :
    goes (step (placed 0x8125 (two 1#4 0x05#8 2#4 0x0A#8))) (fun t => t.getV 1#4 == 0xFB#8 && t.getV 15#4 == 0#8) = true := by
  decide
/-- A15: equal operands do not borrow. -/
theorem test_subReg_equal :
    goes (step (placed 0x8125 (two 1#4 0x07#8 2#4 0x07#8))) (fun t => t.getV 1#4 == 0#8 && t.getV 15#4 == 1#8) = true := by
  decide
/-- A18: y is ignored. -/
theorem test_shiftRight :
    goes (step (placed 0x8456 (two 4#4 0x04#8 5#4 0xFF#8))) (fun t => t.getV 4#4 == 0x02#8 && t.getV 15#4 == 0#8) = true := by
  decide
/-- A19. -/
theorem test_subRegRev_borrow :
    goes (step (placed 0x8127 (two 1#4 0x0A#8 2#4 0x05#8))) (fun t => t.getV 1#4 == 0xFB#8 && t.getV 15#4 == 0#8) = true := by
  decide
/-- A21. -/
theorem test_shiftLeft :
    goes (step (placed 0x840E (State.reset.setV 4#4 0x81#8))) (fun t => t.getV 4#4 == 0x02#8 && t.getV 15#4 == 1#8) = true := by
  decide
/-- A29: r = 0xA7. -/
theorem test_random_mask : goes (randomWith 0xA7#8 3#4 0x0F#8 State.reset) (fun t => t.getV 3#4 == 0x07#8) = true := by decide
/-- random takes one draw. -/
theorem test_random_draws : goes (step (placed 0xC300 State.reset)) (fun t => t.draws == 1 && t.pc == 0x202#16) = true := by decide

/-- M1. -/
theorem test_setIndex : goes (step (placed 0xA123 State.reset)) (fun t => t.i == 0x123#16) = true := by decide
/-- M3: the sum wraps at 16 bits. -/
theorem test_addIndex :
    goes (step (placed 0xF21E ((State.reset.setI 0xFFFF#16).setV 2#4 2#8))) (fun t => t.i == 1#16 && t.getV 15#4 == 0#8) = true := by
  decide
/-- M5: no nibble mask. -/
theorem test_setIndexFont : goes (step (placed 0xF729 (State.reset.setV 7#4 0xFF#8))) (fun t => t.i == 0x4FB#16) = true := by decide
/-- E1, and 250 of vectors B. -/
theorem test_bcd3 : bcd3 202#8 = [2#8, 0#8, 2#8] ∧ bcd3 250#8 = [2#8, 5#8, 0#8] := by decide +kernel
/-- M6. -/
theorem test_storeBcd :
    goes (step (placed 0xF333 ((State.reset.setI 0x300#16).setV 3#4 0xCA#8)))
      (fun t => t.mem == [(0x200, 0xF3#8), (0x201, 0x33#8), (0x300, 2#8), (0x302, 2#8)] && t.i == 0x300#16) = true := by
  decide +kernel
/-- M10. -/
theorem test_storeBcd_font :
    faults (step (placed 0xF333 ((State.reset.setI 0x04E#16).setV 3#4 7#8))) (.fontWrite 0x4E) = true := by decide +kernel
/-- M13. -/
theorem test_storeRegs :
    goes (step (placed 0xF255 (((two 0#4 1#8 1#4 2#8).setV 2#4 3#8).setI 0x400#16)))
      (fun t => t.readByte 0x400 == 1#8 && t.readByte 0x401 == 2#8 && t.readByte 0x402 == 3#8 && t.readByte 0x403 == 0#8) = true := by
  decide +kernel
/-- M16. -/
theorem test_storeRegs_range : faults (step (placed 0xFF55 (State.reset.setI 0xFF1#16))) (.memoryRange 0x1000) = true := by
  decide +kernel
/-- M18. -/
theorem test_loadRegs :
    goes (step (placed 0xF165 ((poke 0x400 [0xAA#8, 0xBB#8, 0xCC#8] State.reset).setI 0x400#16)))
      (fun t => t.getV 0#4 == 0xAA#8 && t.getV 1#4 == 0xBB#8 && t.getV 2#4 == 0#8) = true := by decide +kernel
/-- M19: the font may be read. -/
theorem test_loadRegs_font : goes (step (placed 0xF065 State.reset)) (fun t => t.getV 0#4 == 0xF0#8) = true := by decide +kernel
/-- M12: policy ignore writes only 0x050. -/
theorem test_memWrite_ignore :
    goes (finish (State.reset.memWrite .ignore 0x04E [0#8, 0#8, 7#8])) (fun t => t.mem == [(0x50, 7#8)]) = true := by decide +kernel
/-- M11: policy write; the two font bytes 0x04E and 0x04F are 80 80 at reset. -/
theorem test_memWrite_write :
    goes (finish (State.reset.memWrite .write 0x04E [0#8, 0#8, 7#8]))
      (fun t => t.mem == [(0x4E, 0#8), (0x4F, 0#8), (0x50, 7#8)]) = true := by decide +kernel

/-- G1. -/
theorem test_clearScreen :
    goes (step (placed 0x00E0 (State.reset.setFb (Grid.toggle Grid.blank (5, 10))))) (fun t => !t.lit (5, 10) && !t.lit (0, 0)) = true := by
  decide +kernel
/-- G3: wraps into (0,0). -/
theorem test_draw_wraps :
    goes (step (placed 0xD012 ((poke 0x300 [0xC0#8, 0xC0#8] (two 0#4 0x3F#8 1#4 0x1F#8)).setI 0x300#16)))
      (fun t => t.lit (0, 0) && t.lit (0, 63) && t.lit (31, 0) && t.lit (31, 63) && !t.lit (1, 0) && t.getV 15#4 == 0#8) = true := by
  decide +kernel
/-- G9: a clear sprite bit over a lit cell does not count, a set one does. -/
theorem test_draw_collision :
    goes (step (placed 0xD011 ((poke 0x300 [0xA0#8] (State.reset.setFb
        (Grid.toggle (Grid.toggle Grid.blank (0, 1)) (0, 2)))).setI 0x300#16)))
      (fun t => t.lit (0, 0) && t.lit (0, 1) && !t.lit (0, 2) && t.getV 15#4 == 1#8) = true := by decide +kernel

/-- K1, K2. -/
theorem test_skipIfKey :
    goes (step (placed 0xE19E ((State.reset.setV 1#4 5#8).setKey 5 true))) (fun t => t.pc == 0x204#16) = true ∧
    goes (step (placed 0xE19E (State.reset.setV 1#4 5#8))) (fun t => t.pc == 0x202#16) = true := by decide
/-- K3, K4. -/
theorem test_skipIfNotKey :
    goes (step (placed 0xE1A1 ((State.reset.setV 1#4 5#8).setKey 5 true))) (fun t => t.pc == 0x202#16) = true ∧
    goes (step (placed 0xE1A1 (State.reset.setV 1#4 5#8))) (fun t => t.pc == 0x204#16) = true := by decide
/-- K4b. -/
theorem test_key_index : faults (step (placed 0xE19E (State.reset.setV 1#4 0x10#8))) (.keyIndex 0x10#8) = true := by decide
/-- K5. -/
theorem test_waitKey_stalls :
    goes (step (placed 0xF20A (State.reset.setPc 0x210#16))) (fun t => t == placed 0xF20A (State.reset.setPc 0x210#16)) = true ∧
    cycleReply (placed 0xF20A (State.reset.setPc 0x210#16)) = .stalled := by decide +kernel
/-- K6. -/
theorem test_waitKey_lowest :
    goes (step (placed 0xF20A (((State.reset.setPc 0x210#16).setKey 9 true).setKey 3 true)))
      (fun t => t.pc == 0x212#16 && t.getV 2#4 == 3#8) = true := by decide +kernel
/-- K7. -/
theorem test_readDelay : goes (step (placed 0xF507 (State.reset.setDT 60#8))) (fun t => t.getV 5#4 == 0x3C#8) = true := by decide
/-- K8. -/
theorem test_setDelay : goes (step (placed 0xF515 (State.reset.setV 5#4 0x3C#8))) (fun t => t.dt == 60#8) = true := by decide
/-- K9. -/
theorem test_setSound :
    goes (step (placed 0xF618 ((State.reset.setV 6#4 1#8).setST 5#8))) (fun t => t.st == 1#8 && t.dt == 0#8) = true := by decide

/-! ### Host commands (vectors T) and the fault record -/

/-- T1. -/
theorem test_tick_edge :
    replyTo .tickTimers (State.reset.setST 1#8) = .soundEvent ∧
    goes (runCommand .tickTimers (State.reset.setST 1#8)) (fun t => t.st == 0#8 && t.dt == 0#8) = true := by decide
/-- T4, its first tick. -/
theorem test_tick_no_edge :
    replyTo .tickTimers ((State.reset.setST 2#8).setDT 5#8) = .noSound ∧
    goes (runCommand .tickTimers ((State.reset.setST 2#8).setDT 5#8)) (fun t => t.st == 1#8 && t.dt == 4#8) = true := by decide
/-- T9, T10: a refused key id changes nothing, and the host's next command runs. -/
theorem test_key_commands :
    goes (step { State.reset with script := [.keyDown 16, .keyDown 4] }) (fun t => t == { State.reset with script := [.keyDown 4] }) = true ∧
    replyTo (.keyDown 16) State.reset = .fault ⟨.keyIdRange, 8, none, none, some 16⟩ ∧
    goes (runCommand (.keyDown 4) State.reset) (fun t => t.key 4 && !t.key 5) = true := by decide +kernel
/-- T6, T8. -/
theorem test_load_refused :
    goes (runCommand (.load (List.replicate 3585 0xAB#8)) State.reset) (fun t => t == State.reset) = true ∧
    replyTo (.load (List.replicate 3585 0xAB#8)) State.reset = .fault ⟨.loadSize, 7, none, none, some 3585⟩ ∧
    replyTo (.load []) State.reset = .ok := by decide +kernel
/-- T11. -/
theorem test_reset :
    goes (runCommand .reset (poke 0x200 [0x12#8, 0x34#8] ((State.reset.setV 3#4 9#8).setKey 2 true))) (fun t => t == State.reset) = true := by
  decide +kernel
/-- A script is issued in order, one command a step. -/
theorem test_script :
    goes (step { State.reset with script := [.keyDown 3, .cycle] }) (fun t => t.key 3 && t.script == [.cycle] && t.pc == 0x200#16) = true := by
  decide
/-- C9: code 2, pc0 and word. -/
theorem test_fault_record :
    cycleReply (placed 0x2300 (State.reset.setSP 16)) = .fault ⟨.stackOverflow, 2, some 0x200#16, some 0x2300#16, none⟩ := by decide
/-- C25: no word when the fetch itself faults. -/
theorem test_fault_record_fetch :
    cycleReply (State.reset.setPc 0xFFF#16) = .fault ⟨.memoryRange, 4, some 0xFFF#16, none, some 0x1000⟩ := by decide

/-! ### Reset (R36, R53) -/

theorem test_reset_memory_canonical : Memory.wf State.reset.mem := by decide
theorem test_reset_font : State.reset.readByte 0 = 0xF0#8 ∧ State.reset.readByte 79 = 0x80#8 ∧ State.reset.readByte 80 = 0#8 := by decide
theorem test_decodeTableWord : decodeTableWord 16 0x8124 = some (.addReg 1#4 2#4) ∧ decodeTableWord 16 0x5121 = none := by decide

/-! ### Witnesses: for each obligation with hypotheses, inputs that meet them, each clause at a boundary -/

/-- Index register at a boundary. -/
def atI (v : Word) : State := State.reset.setI v

/-- A lit sprite pixel at 0x300. -/
def pixel : State := (poke 0x300 [0x80#8] State.reset).setI 0x300#16

theorem witness_DecodeOfEncodeGivesTheInstruction :
    (Instr.noOp 0xFFF#12).wf = true ∧ (Instr.draw 15#4 15#4 15#4).wf = true := by decide
theorem witness_EncodeOfDecodeGivesTheWord :
    decode 0x8FF6#16 = .ok (.shiftRight 15#4) ∧ decode 0x8FFE#16 = .ok (.shiftLeft 15#4) ∧
    decode 0x0FFF#16 = .ok (.noOp 0xFFF#12) := by decide
theorem witness_DecoderFollowsTheOpcodeTable :
    0x00E0#16 &&& (Instr.noOp 0#12).row.mask = (Instr.noOp 0#12).row.pattern ∧
    0x00EE#16 &&& (Instr.noOp 0#12).row.mask = (Instr.noOp 0#12).row.pattern ∧
    0x00E1#16 &&& (Instr.noOp 0#12).row.mask = (Instr.noOp 0#12).row.pattern := by decide
theorem witness_ZeroOnlyPolicyRejectsTheOtherNoOps :
    (opOf 0x0001#16 = 0#4 ∧ 0x0001#16 ≠ 0x0000#16 ∧ 0x0001#16 ≠ 0x00E0#16 ∧ 0x0001#16 ≠ 0x00EE#16) ∧
    ¬ (opOf 0x1000#16 = 0#4) := by decide
theorem witness_StepRunsTheDecodedInstruction :
    (placed 0x6A3F State.reset).script = [] ∧ Fetches (placed 0x6A3F State.reset) 0x6A3F#16 ∧
    decode 0x6A3F#16 = .ok (.setImm 10#4 0x3F#8) := ⟨rfl, ⟨by decide, by decide⟩, by decide⟩
theorem witness_StepRunsTheDecodedInstruction_scripted :
    (∃ rest, { State.reset with script := [.cycle, .tickTimers] }.script = .cycle :: rest) ∧
    Fetches { State.reset with script := [.cycle, .tickTimers] } 0#16 ∧ decode 0#16 = .ok (.noOp 0#12) :=
  ⟨⟨_, rfl⟩, ⟨by decide, by decide⟩, by decide⟩
theorem witness_StepIssuesTheNextHostCommand :
    State.reset.script = [] ∧ { State.reset with script := [.keyDown 3, .cycle] }.script = .keyDown 3 :: [.cycle] := ⟨rfl, rfl⟩
theorem witness_PlacedWordIsFetched :
    0xFFFF < 65536 ∧ (State.reset.setPc 0xFFE#16).pc.toNat < 4095 ∧ 4095 ≤ (State.reset.setPc 0xFFF#16).pc.toNat := by decide
theorem witness_CycleFetchesAndDecodes :
    4096 ≤ (State.reset.setPc 0x1000#16).pc.toNat ∧ (State.reset.setPc 0xFFF#16).pc.toNat = 4095 ∧
    (State.reset.setPc 0xFFE#16).pc.toNat < 4095 ∧ decode 0x5121#16 = .error (.illegalWord 0x5121#16) := by decide
theorem witness_NoOpChangesNothing : State.reset.script = [] ∧ Fetches State.reset 0x0000#16 := ⟨rfl, by decide, by decide⟩
theorem witness_ZeroedMemoryIsSlidThrough :
    State.reset.script = [] ∧ State.reset.pc.toNat + 2 * 1792 ≤ 4096 ∧
    (∀ a, State.reset.pc.toNat ≤ a → a < State.reset.pc.toNat + 2 * 1792 → State.reset.readByte a = 0#8) := by
  refine ⟨rfl, by decide, fun a h _ => ?_⟩
  have h' : 512 ≤ a := h
  have hl : Params.fontBytes.length ≤ a := Nat.le_trans (by decide) h'
  simp [State.readByte, State.reset, Memory.read, Memory.unlisted, List.getElem?_eq_none hl]
theorem witness_SkipsAdvanceOnTheirCondition :
    (two 1#4 7#8 2#4 8#8).getV 1#4 = 7#8 ∧ (two 1#4 7#8 2#4 8#8).getV 1#4 ≠ 8#8 ∧
    (two 1#4 7#8 2#4 8#8).getV 1#4 ≠ (two 1#4 7#8 2#4 8#8).getV 2#4 ∧
    (two 1#4 7#8 2#4 7#8).getV 1#4 = (two 1#4 7#8 2#4 7#8).getV 2#4 := by decide
theorem witness_CallPushesTheReturnAddress :
    (State.reset.setSP 15).sp.val < 16 ∧ (State.reset.setSP 16).sp.val = 16 := by decide
theorem witness_ReturnPopsIntoThePc : 0 < (State.reset.setSP 1).sp.val ∧ State.reset.sp.val = 0 := by decide
theorem witness_CallThenReturnContinuesAfterTheCall :
    (State.reset.setSP 15).sp.val < 16 ∧ (14 : Fin 16).val ≠ (State.reset.setSP 15).sp.val ∧
    (15 : Fin 16).val ≠ (State.reset.setSP 0).sp.val := by decide
theorem witness_FlagInstructions :
    255 = ((two 14#4 255#8 15#4 1#8).getV 14#4).toNat ∧ 1 = ((two 14#4 255#8 15#4 1#8).getV 15#4).toNat ∧ 14#4 ≠ 15#4 := by
  decide
theorem witness_WriteRFOrdersDifferOnlyAtVF : 14#4 ≠ 15#4 ∧ 15#4 = 15#4 := by decide
theorem witness_StoreBcdStoresThreeDigits :
    (80 ≤ baseAddr (atI 0x050#16) ∧ baseAddr (atI 0x050#16) ≤ 4093) ∧
    (80 ≤ baseAddr (atI 0xFFD#16) ∧ baseAddr (atI 0xFFD#16) ≤ 4093) ∧
    4094 ≤ baseAddr (atI 0xFFE#16) ∧ baseAddr (atI 0x04F#16) < 80 := by decide
theorem witness_StoreRegsStoresTheBlock :
    (80 ≤ baseAddr (atI 0x050#16) ∧ baseAddr (atI 0x050#16) + (0#4).toNat < 4096) ∧
    (80 ≤ baseAddr (atI 0xFF0#16) ∧ baseAddr (atI 0xFF0#16) + (15#4).toNat < 4096) ∧
    4096 ≤ baseAddr (atI 0xFF1#16) + (15#4).toNat ∧ baseAddr (atI 0x04F#16) < 80 := by decide
theorem witness_LoadRegsLoadsTheBlock :
    baseAddr (atI 0xFF0#16) + (15#4).toNat < 4096 ∧ 4096 ≤ baseAddr (atI 0xFF1#16) + (15#4).toNat := by decide
theorem witness_StoredWordIsFetched :
    (0#4).toNat < (1#4).toNat ∧ (∃ t, exec (.storeRegs 1#4) (atI 0x400#16) = .next t) ∧
    (0x400#16).toNat = baseAddr (atI 0x400#16) + (0#4).toNat := ⟨by decide, ⟨_, rfl⟩, by decide⟩
theorem witness_OtherFontPoliciesWriteOrSkip :
    0x4F + [1#8, 2#8].length ≤ 4096 ∧ 4094 + [1#8, 2#8].length ≤ 4096 ∧ 4096 < 4095 + [1#8, 2#8].length ∧ [1#8, 2#8] ≠ [] := by
  decide
theorem witness_CanonicalMemoriesAreEqual :
    Memory.wf [(0x300, 1#8), (0x301, 2#8)] ∧
    (∀ a, Memory.read [(0x300, 1#8), (0x301, 2#8)] a = Memory.read (Memory.writeBytes [] 0x300 [1#8, 2#8]) a) :=
  ⟨by decide, fun _ => rfl⟩
theorem witness_DrawTogglesTheCoveredCells :
    baseAddr (atI 0xFFF#16) + (1#4).toNat ≤ 4096 ∧ (0#4 = 0#4) ∧
    (4096 < baseAddr (atI 0xFFF#16) + (2#4).toNat ∧ 2#4 ≠ 0#4) := by decide
theorem witness_DrawTogglesTheCoveredCells_covered :
    SpriteCovers pixel 0#4 1#4 1#4 (0, 0) ∧ pixel.lit (0, 0) = false ∧
    (pixel.setFb (Grid.toggle Grid.blank (0, 0))).lit (0, 0) = true :=
  ⟨⟨0, 0, by decide, by decide, by decide, by decide, by decide⟩, by decide, by decide⟩
theorem witness_DrawingTwiceRestoresTheScreen :
    0#4 ≠ 15#4 ∧ 1#4 ≠ 15#4 ∧ ∃ t u, exec (.draw 0#4 1#4 1#4) pixel = .next t ∧ exec (.draw 0#4 1#4 1#4) t = .next u :=
  ⟨by decide, by decide, _, _, rfl, rfl⟩
theorem witness_KeySkipsReadTheNamedKey :
    ((State.reset.setV 1#4 15#8).getV 1#4).toNat = (15 : Fin 16).val ∧ 15 < ((State.reset.setV 1#4 16#8).getV 1#4).toNat := by decide
theorem witness_WaitKeyTakesTheLowestKey :
    (((State.reset.setKey 9 true).setKey 3 true).key 3 = true ∧
      (∀ j : Fin 16, j < 3 → ((State.reset.setKey 9 true).setKey 3 true).key j = false)) ∧
    (∀ k, State.reset.key k = false) := by decide
theorem witness_WaitKeyStallsUntilAKeyIsPressed :
    (placed 0xF20A State.reset).script = [] ∧ Fetches (placed 0xF20A State.reset) 0xF20A#16 ∧
    decode 0xF20A#16 = .ok (.waitKey 2#4) ∧ (∀ k, (placed 0xF20A State.reset).key k = false) :=
  ⟨rfl, ⟨by decide, by decide⟩, by decide, by decide⟩
theorem witness_TickDecrementsTheTimers :
    (State.reset.setST 1#8).st.toNat = 1 ∧ (State.reset.setST 2#8).st.toNat ≠ 1 ∧ State.reset.st.toNat ≠ 1 := by decide
theorem witness_LoadCopiesTheImage :
    (List.replicate 3584 0xAB#8).length ≤ 3584 ∧ 3584 < (List.replicate 3585 0xAB#8).length := by
  rw [List.length_replicate, List.length_replicate]
  decide
theorem witness_KeyCommandsSetOneKey : (15 : Fin 16).val = 15 ∧ 15 < 16 := by decide
theorem witness_InitStateValues : 79 < 80 ∧ 80 ≤ 80 := by decide
theorem witness_EveryStepKeepsTheInvariant :
    Inv (placed 0x6A3F State.reset) ∧ ∃ t, step (placed 0x6A3F State.reset) = .next t :=
  ⟨⟨by decide, by intro a h; revert a h; decide +kernel, by decide, by decide⟩, _, rfl⟩
theorem witness_InstructionsChangeOnlyTheirParts :
    (∃ t, exec (.setDelay 1#4) (State.reset.setV 1#4 9#8) = .next t ∧ ¬ writesReg 15#4 (.setDelay 1#4)) ∧
    (∃ t, exec (.storeRegs 0#4) ((State.reset.setV 0#4 9#8).setI 0xFFF#16) = .next t ∧ t.readByte 0xFFF ≠ State.reset.readByte 0xFFF) ∧
    (∃ t, exec (.storeBcd 0#4) ((State.reset.setV 0#4 9#8).setI 0xFFD#16) = .next t ∧ t.readByte 0xFFF ≠ State.reset.readByte 0xFFF) ∧
    (∃ t, exec (.loadRegs 14#4) State.reset = .next t ∧ ¬ writesReg 15#4 (.loadRegs 14#4)) ∧
    (∃ t, exec (.waitKey 1#4) State.reset = .next t) :=
  ⟨⟨_, rfl, by simp [writesReg]⟩, ⟨_, rfl, by decide⟩, ⟨_, rfl, by decide +kernel⟩, ⟨_, rfl, by simp [writesReg]⟩, ⟨_, rfl⟩⟩
theorem witness_CycleNeverTicks :
    (∃ t, cycle (placed 0xF115 (State.reset.setV 1#4 9#8)) = .next t ∧ t.dt ≠ (placed 0xF115 (State.reset.setV 1#4 9#8)).dt) ∧
    (∃ t, cycle (placed 0xF118 (State.reset.setV 1#4 9#8)) = .next t ∧ t.st ≠ (placed 0xF118 (State.reset.setV 1#4 9#8)).st) :=
  ⟨⟨_, rfl, by decide⟩, ⟨_, rfl, by decide⟩⟩
theorem witness_VFChangesOnlyWhereNamed :
    (∃ t, exec (.addImm 15#4 1#8) State.reset = .next t ∧ t.getV 15#4 ≠ State.reset.getV 15#4) ∧
    (∃ t, exec (.subReg 0#4 0#4) State.reset = .next t ∧ t.getV 15#4 ≠ State.reset.getV 15#4) :=
  ⟨⟨_, rfl, by decide⟩, ⟨_, rfl, by decide⟩⟩
theorem witness_NoInstructionChangesTheFont :
    (∃ t, exec (.storeRegs 15#4) (atI 0x50#16) = .next t) ∧ 79 < 80 := ⟨⟨_, rfl⟩, by decide⟩
theorem witness_OnlyRandomReadsTheRandomSource : ∀ x nn, Instr.ret ≠ .random x nn := by simp
theorem witness_FinishedExactlyAtASelfJump :
    Fetches (placed 0x1200 State.reset) 0x1200#16 ∧ decode 0x1200#16 = .ok (.jump 0x200#12) ∧
    (0x200#12).toNat = (placed 0x1200 State.reset).pc.toNat ∧ Finished (placed 0x1200 State.reset) :=
  ⟨⟨by decide, by decide⟩, by decide, by decide, rfl, by decide⟩
theorem witness_FaultRecordNamesWordAndAddress :
    cycle (State.reset.setPc 0xFFF#16) = .fault (.memoryRange 4096) ∧
    cycle (placed 0x5121 State.reset) = .fault (.decodeFault 0x5121#16 0x200#16) ∧
    cycle (placed 0x2300 (State.reset.setSP 16)) = .fault (.stackOverflow 0x200#16) ∧
    cycle (placed 0x00EE State.reset) = .fault (.stackUnderflow 0x200#16) ∧
    cycle (placed 0xF055 (atI 0x04F#16)) = .fault (.fontWrite 0x04F) ∧
    cycle (placed 0xE19E (State.reset.setV 1#4 0x10#8)) = .fault (.keyIndex 0x10#8) := ⟨rfl, rfl, rfl, rfl, rfl, rfl⟩
theorem witness_FaultRecord_commands :
    (List.replicate 3584 0xAB#8).length ≤ 3584 ∧ 3584 < (List.replicate 3585 0xAB#8).length ∧ 15 ≤ 15 ∧ 15 < 16 := by
  rw [List.length_replicate, List.length_replicate]
  decide

end Sys2Proof.Tests
end

section
/-! Proofs of the statements on the encoding's cycle. First layer: what a cycle does once its fetch and its decode are
known, and everything each instruction that can fault or stall does, each said once about `cycle` or `exec`. -/

namespace Sys2Proof.Machine

/-! ### One cycle, by its fetch and its decode (30_encoding.md R80 to R82) -/

/-- The value of a fetched word: the first byte is the high half (R54, R81). -/
theorem toNat_bigEndian (b0 b1 : Byte) : (bigEndian b0 b1).toNat = 256 * b0.toNat + b1.toNat := by
  have hor : b0.toNat <<< 8 + b1.toNat = b0.toNat <<< 8 ||| b1.toNat := Nat.shiftLeft_add_eq_or_of_lt b1.isLt _
  rw [bigEndian, BitVec.toNat_append, ← hor, Nat.shiftLeft_eq, Nat.mul_comm]

theorem cycle_of_fetch_fault (s : State) (h : 4095 ≤ s.pc.toNat) :
    cycle s = .fault (.memoryRange (max s.pc.toNat 4096)) := by
  simp [cycle, fetchWord_fault s h]

theorem cycle_of_decode_ok {s : State} {w : Word} {i : Instr} (hf : fetchWord s = .ok w) (hd : decode w = .ok i) :
    cycle s = exec i s.advance := by
  simp [cycle, hf, hd]

theorem cycle_of_decode_error {s : State} {w : Word} {e : Reject} (hf : fetchWord s = .ok w)
    (hd : decode w = .error e) : cycle s = .fault (.decodeFault w s.pc) := by
  simp [cycle, hf, hd]

/-! ### Everything a faulting or stalling instruction can do -/

section Cases

variable (s : State)

/-- return (R102): it underflows, or `pc` is the popped slot. -/
theorem exec_ret_cases :
    (s.sp.val = 0 ∧ exec .ret s = .fault (.stackUnderflow s.pc0)) ∨
    (0 < s.sp.val ∧ exec .ret s =
      .next ((s.setSP ⟨s.sp.val - 1, by omega⟩).setPc (s.stack[s.sp.val - 1]'(by omega)))) := by
  rcases Nat.eq_zero_or_pos s.sp.val with h | h
  · exact .inl ⟨h, by simp [exec, execRet, s.pop_of_empty h]⟩
  · exact .inr ⟨h, by simp [exec, execRet, s.pop_of_pos h]⟩

/-- call (R104): it overflows, or the return address is pushed and `pc` is the target. -/
theorem exec_call_cases (nnn : Addr12) :
    (s.sp.val = 16 ∧ exec (.call nnn) s = .fault (.stackOverflow s.pc0)) ∨
    (∃ h : s.sp.val < 16, exec (.call nnn) s =
      .next (((s.setSlot ⟨s.sp.val, h⟩ s.pc).setSP ⟨s.sp.val + 1, by omega⟩).setPc (absTarget nnn))) := by
  rcases Nat.lt_or_ge s.sp.val 16 with h | h
  · exact .inr ⟨h, by simp [exec, execCall, s.push_of_lt s.pc h]⟩
  · have hfull : s.sp.val = 16 := by omega
    exact .inl ⟨hfull, by simp [exec, execCall, s.push_of_full s.pc hfull]⟩

/-- draw (R161): it reads outside the memory, or draws the rows it read. -/
theorem exec_draw_cases (x y n : Nibble) :
    (4096 < baseAddr s + n.toNat ∧ n.toNat ≠ 0 ∧
      exec (.draw x y n) s = .fault (.memoryRange (max (baseAddr s) 4096))) ∨
    ((baseAddr s + n.toNat ≤ 4096 ∨ n.toNat = 0) ∧ exec (.draw x y n) s =
      .next (drawRows .msbFirst x y ((List.range' (baseAddr s) n.toNat).map s.readByte) s)) := by
  by_cases h : baseAddr s + n.toNat ≤ 4096 ∨ n.toNat = 0
  · exact .inr ⟨h, by simp only [exec, execDraw, s.memRead_ok _ _ h]⟩
  · obtain ⟨hout, hn⟩ := not_or.mp h
    have hlt := Nat.lt_of_not_le hout
    exact .inl ⟨hlt, hn, by simp only [exec, execDraw, s.memRead_fault _ _ hlt hn, raise_eq]⟩

/-- load-regs (R147): it reads outside the memory, or loads the bytes it read. -/
theorem exec_loadRegs_cases (x : Nibble) :
    (4096 < baseAddr s + blockLen x ∧
      exec (.loadRegs x) s = .fault (.memoryRange (max (baseAddr s) 4096))) ∨
    (baseAddr s + blockLen x ≤ 4096 ∧ exec (.loadRegs x) s =
      .next (s.setBlock ((List.range' (baseAddr s) (blockLen x)).map s.readByte))) := by
  rcases Nat.lt_or_ge 4096 (baseAddr s + blockLen x) with h | h
  · exact .inl ⟨h, by simp only [exec, execLoadRegs, s.memRead_fault _ _ h (Nat.succ_ne_zero _), raise_eq]⟩
  · exact .inr ⟨h, by simp only [exec, execLoadRegs, s.memRead_ok _ _ (.inl h)]⟩

/-- A store that ends a command (R58): its bytes are written, or it faults. -/
theorem finish_memWrite_cases (addr : Nat) (bs : List Byte) (hn : bs ≠ []) :
    (80 ≤ addr ∧ addr + bs.length ≤ 4096 ∧
      finish (s.memWrite .fault addr bs) = .next (s.setMem (Memory.writeBytes s.mem addr bs))) ∨
    (4096 < addr + bs.length ∧ finish (s.memWrite .fault addr bs) = .fault (.memoryRange (max addr 4096))) ∨
    (addr < 80 ∧ addr + bs.length ≤ 4096 ∧ finish (s.memWrite .fault addr bs) = .fault (.fontWrite addr)) := by
  rcases s.memWrite_cases addr bs hn with ⟨h1, h2, hw⟩ | ⟨h1, hw⟩ | ⟨h1, h2, hw⟩
  · exact .inl ⟨h1, h2, by rw [hw, finish_ok]⟩
  · exact .inr (.inl ⟨h1, by rw [hw, finish_error]⟩)
  · exact .inr (.inr ⟨h1, h2, by rw [hw, finish_error]⟩)

/-- The two key skips (R170, R171, R172): KeyIndex, or a skip on the named key's value. -/
theorem exec_keySkips_cases (x : Nibble) :
    (15 < (s.getV x).toNat ∧ exec (.skipIfKey x) s = .fault (.keyIndex (s.getV x)) ∧
      exec (.skipIfNotKey x) s = .fault (.keyIndex (s.getV x))) ∨
    (∃ h : (s.getV x).toNat < 16, exec (.skipIfKey x) s = .next (s.skipIf (s.key ⟨(s.getV x).toNat, h⟩)) ∧
      exec (.skipIfNotKey x) s = .next (s.skipIf (!s.key ⟨(s.getV x).toNat, h⟩))) := by
  rcases Nat.lt_or_ge 15 (s.getV x).toNat with h | h
  · exact .inl ⟨h, by simp [exec, execSkipIfKey, keyOperand_fault s x h],
      by simp [exec, execSkipIfNotKey, keyOperand_fault s x h]⟩
  · have hlt : (s.getV x).toNat < 16 := by omega
    exact .inr ⟨hlt, by simp [exec, execSkipIfKey, keyOperand_ok s x hlt],
      by simp [exec, execSkipIfNotKey, keyOperand_ok s x hlt]⟩

/-- wait-key (R173, R174): it rewinds `pc` to stall, or takes the lowest pressed key. -/
theorem exec_waitKey_cases (x : Nibble) :
    (s.lowestKey = none ∧ exec (.waitKey x) s = .next (s.setPc s.pc0)) ∨
    (∃ k, s.lowestKey = some k ∧ exec (.waitKey x) s = .next (s.setV x (BitVec.ofNat 8 k.val))) := by
  cases h : s.lowestKey with
  | none => exact .inl ⟨rfl, by simp [exec, execWaitKey, h]⟩
  | some k => exact .inr ⟨k, rfl, by simp [exec, execWaitKey, h]⟩

end Cases

/-! ### The timers (R85) -/

/-- An outcome from `s` whose next state, if there is one, has DT and ST of `s`. -/
def KeepsTimers (s : State) (r : Result) : Prop := ∀ t, r = .next t → t.dt = s.dt ∧ t.st = s.st

@[simp] theorem keepsTimers_next (s t : State) : KeepsTimers s (.next t) ↔ t.dt = s.dt ∧ t.st = s.st := by
  simp [KeepsTimers]

@[simp] theorem keepsTimers_fault (s : State) (f : Fault) : KeepsTimers s (.fault f) := by
  simp [KeepsTimers]

theorem keepsTimers_skipIf (s : State) (c : Bool) : KeepsTimers s (.next (s.skipIf c)) := by simp

theorem keepsTimers_writeRF (o : Config.VfDestOrder) (x : Nibble) (res : Byte) (f : Bool) (s : State) :
    KeepsTimers s (.next (writeRF o x res f s)) := by simp

theorem keepsTimers_memWrite (s : State) (addr : Nat) (bs : List Byte) (hn : bs ≠ []) :
    KeepsTimers s (finish (s.memWrite .fault addr bs)) := by
  rcases finish_memWrite_cases s addr bs hn with ⟨_, _, h⟩ | ⟨_, h⟩ | ⟨_, _, h⟩ <;> simp [h]

/-- Every instruction but set-delay and set-sound keeps both timers: its meaning writes other fields, or faults. -/
theorem exec_keepsTimers (i : Instr) (s : State) (hdelay : ∀ x, i ≠ .setDelay x) (hsound : ∀ x, i ≠ .setSound x) :
    KeepsTimers s (exec i s) := by
  cases i with
  | setDelay x => exact absurd rfl (hdelay x)
  | setSound x => exact absurd rfl (hsound x)
  | ret => rcases exec_ret_cases s with ⟨_, h⟩ | ⟨_, h⟩ <;> simp [h]
  | call nnn => rcases exec_call_cases s nnn with ⟨_, h⟩ | ⟨_, h⟩ <;> simp [h]
  | draw x y n => rcases exec_draw_cases s x y n with ⟨_, _, h⟩ | ⟨_, h⟩ <;> simp [h]
  | loadRegs x => rcases exec_loadRegs_cases s x with ⟨_, h⟩ | ⟨_, h⟩ <;> simp [h]
  | storeBcd x => exact keepsTimers_memWrite s _ _ (bcd3_ne_nil _)
  | storeRegs x => exact keepsTimers_memWrite s _ _ (regBlock_ne_nil s x)
  | skipIfKey x => rcases exec_keySkips_cases s x with ⟨_, h, _⟩ | ⟨_, h, _⟩ <;> simp [h]
  | skipIfNotKey x => rcases exec_keySkips_cases s x with ⟨_, _, h⟩ | ⟨_, _, h⟩ <;> simp [h]
  | waitKey x => rcases exec_waitKey_cases s x with ⟨_, h⟩ | ⟨_, _, h⟩ <;> simp [h]
  | skipEqImm | skipNeImm | skipEqReg | skipNeReg => exact keepsTimers_skipIf s _
  | addReg | subReg | shiftRight | subRegRev | shiftLeft => exact keepsTimers_writeRF _ _ _ _ s
  | noOp | clearScreen | jump | jumpOffset | setIndex | addIndex | setIndexFont | setImm | addImm | setReg | orReg
  | andReg | xorReg | random | readDelay => exact (keepsTimers_next s _).mpr ⟨rfl, rfl⟩

/-! ### The obligations -/

/-- Settles O11, from the fetch inside and outside the memory and the cycle by the decode of its word. -/
theorem cycleFetchesAndDecodes : Obligations.CycleFetchesAndDecodes := by
  intro s
  refine ⟨fun h => ?_, fun h => ?_, fun h => ?_⟩
  · rw [cycle_of_fetch_fault s (by omega), Nat.max_eq_left h]
  · simp [cycle_of_fetch_fault s h.ge, h]
  · have hf := fetchWord_ok s (by omega)
    exact ⟨_, hf, toNat_bigEndian _ _, fun _ hd => cycle_of_decode_ok hf hd, fun _ hd => cycle_of_decode_error hf hd⟩

/-- Settles O51: a cycle that answers a next state ran a decoded instruction, and only two of them write a timer. -/
theorem cycleNeverTicks : Obligations.CycleNeverTicks := by
  intro s t hnext hchanged
  rcases cycle_cases s with ⟨_, hc⟩ | ⟨_, _, _, _, hc⟩ | ⟨w, i, hw, hd, hc⟩
  · exact nomatch hc.symm.trans hnext
  · exact nomatch hc.symm.trans hnext
  · by_contra hno
    have hdelay : ∀ x, i ≠ .setDelay x := fun x e => hno ⟨w, x, hw, .inl (e ▸ hd)⟩
    have hsound : ∀ x, i ≠ .setSound x := fun x e => hno ⟨w, x, hw, .inr (e ▸ hd)⟩
    obtain ⟨hdt, hst⟩ := exec_keepsTimers i s.advance hdelay hsound t (hc.symm.trans hnext)
    exact hchanged.elim (· hdt) (· hst)

end Sys2Proof.Machine
end

section
/-! Proofs of the statements on control flow (40_control.md). First layer: the frame relation, what writing `pc` and SP
leaves unchanged, and the one rule of all skips. -/

namespace Sys2Proof.Machine

/-! ### The frame relation -/

theorem SameBut.refl (changed : List Part) (s : State) : SameBut changed s s := by
  intro p _
  cases p <;> simp [Same]

theorem Same.trans {p : Part} {s t u : State} (hst : Same p s t) (htu : Same p t u) : Same p s u := by
  cases p with
  | pc | index | delay | sound => exact Eq.trans htu hst
  | regs | keys | screen | memory => exact fun a => (htu a).trans (hst a)
  | stack => exact ⟨htu.1.trans hst.1, fun k => (htu.2 k).trans (hst.2 k)⟩
  | host => exact ⟨htu.1.trans hst.1, htu.2.trans hst.2⟩

/-- Frames compose: two writes leave unchanged what each of them leaves unchanged. -/
theorem SameBut.trans {a b changed : List Part} {s t u : State} (hst : SameBut a s t) (htu : SameBut b t u)
    (ha : a ⊆ changed) (hb : b ⊆ changed) : SameBut changed s u :=
  fun p hp => (hst p fun h => hp (ha h)).trans (htu p fun h => hp (hb h))

theorem sameBut_setPc (s : State) (w : Word) : SameBut [.pc] s (s.setPc w) := by
  intro p hp
  cases p with
  | pc => exact absurd (List.mem_singleton_self _) hp
  | _ => simp [Same]

theorem sameBut_setSP (s : State) (n : Fin 17) : SameBut [.stack] s (s.setSP n) := by
  intro p hp
  cases p with
  | stack => exact absurd (List.mem_singleton_self _) hp
  | _ => simp [Same]

theorem sameBut_skipIf (s : State) (c : Bool) : SameBut [.pc] s (s.skipIf c) := by
  cases c with
  | false => exact SameBut.refl _ s
  | true => exact sameBut_setPc s _

/-! ### Targets and skips -/

theorem toNat_zext16 {k : Nat} (v : BitVec k) (hk : k ≤ 16) : (zext16 v).toNat = v.toNat :=
  BitVec.toNat_setWidth_of_le hk

@[simp] theorem toNat_absTarget (nnn : Addr12) : (absTarget nnn).toNat = nnn.toNat :=
  toNat_zext16 nnn (by decide)

/-- R24, once for every skip: an instruction whose meaning is a skip on `c` advances `pc` by 2 where `c` is true, keeps
it where `c` is false, and writes nothing else. -/
theorem advances_of_exec_eq_skipIf {i : Instr} {s : State} {c : Bool} {P Q : Prop}
    (hexec : exec i s = .next (s.skipIf c)) (htrue : P → c = true) (hfalse : Q → c = false) :
    ∃ t, exec i s = .next t ∧ SameBut [.pc] s t ∧ (P → t.pc = s.pc + 2#16) ∧ (Q → t.pc = s.pc) :=
  ⟨_, hexec, sameBut_skipIf s c, fun h => by simp [htrue h], fun h => by simp [hfalse h]⟩

/-! ### The obligations -/

/-- Settles O14: the meaning of jump is one write of `pc`. -/
theorem jumpReplacesThePc : Obligations.JumpReplacesThePc :=
  fun nnn s => ⟨s.setPc (absTarget nnn), rfl, toNat_absTarget nnn, sameBut_setPc s _⟩

/-- Settles O16: each of the four is a skip, on the Boolean test of its condition. -/
theorem skipsAdvanceOnTheirCondition : Obligations.SkipsAdvanceOnTheirCondition := by
  intro x y nn s
  refine ⟨?eqImm, ?neImm, ?eqReg, ?neReg⟩
  case eqImm | eqReg => exact advances_of_exec_eq_skipIf rfl beq_iff_eq.mpr beq_eq_false_iff_ne.mpr
  case neImm | neReg => exact advances_of_exec_eq_skipIf rfl bne_iff_ne.mpr bne_eq_false_iff_eq.mpr

/-- Settles O18, from the two cases of return: with an entry it writes SP and then `pc`. -/
theorem returnPopsIntoThePc : Obligations.ReturnPopsIntoThePc := by
  intro s
  rcases exec_ret_cases s with ⟨hsp, hexec⟩ | ⟨hsp, hexec⟩
  · exact ⟨fun h => absurd hsp h.ne', fun _ => hexec⟩
  · refine ⟨fun _ => ⟨_, hexec, Nat.sub_add_cancel hsp, fun _ => rfl, fun k hk => ?slot, ?frame⟩,
      fun h => absurd h hsp.ne'⟩
    case slot =>
      have hk' : s.sp.val - 1 = k.val := by omega
      simp [hk']
    case frame => exact (sameBut_setSP s _).trans (sameBut_setPc _ _) (by simp) (by simp)

end Sys2Proof.Machine
end

section
/-! Proofs of the statements on register arithmetic (41_alu.md). First layer: what writing one register leaves
unchanged, and the results and flags of the ALU as integer arithmetic on the operands' values. -/

namespace Sys2Proof.Machine

/-! ### Writing one register -/

theorem sameRegsBut_setV (s : State) (x : Nibble) (v : Byte) : SameRegsBut [x] s (s.setV x v) :=
  fun r hr => s.getV_setV_ne x r v (List.ne_of_not_mem_cons hr)

theorem sameBut_setV (s : State) (x : Nibble) (v : Byte) : SameBut [.regs] s (s.setV x v) := by
  intro p hp
  cases p with
  | regs => exact absurd (List.mem_singleton_self _) hp
  | _ => simp [Same]

/-- R22, once for every instruction whose meaning is one register write: V[x] is the value and all else is kept. -/
theorem writesOneReg_of_exec_eq_setV {i : Instr} {s : State} {x : Nibble} {v : Byte}
    (hexec : exec i s = .next (s.setV x v)) :
    ∃ t, exec i s = .next t ∧ t.getV x = v ∧ SameRegsBut [x] s t ∧ SameBut [.regs] s t :=
  ⟨_, hexec, s.getV_setV_self x v, sameRegsBut_setV s x v, sameBut_setV s x v⟩

/-! ### Results in integer terms (R127 to R131) -/

section Bytes

variable (a b : Byte)

/-- The difference, from `a + 256 - b`, which is never negative because `b` is a byte. -/
theorem ofNat_toNat_sub_toNat : BitVec.ofNat 8 (a.toNat + 256 - b.toNat) = a - b := by
  have hb := b.isLt
  have hcomm : a.toNat + 256 - b.toNat = 2 ^ 8 - b.toNat + a.toNat := by omega
  rw [BitVec.sub_def, hcomm]

theorem ofNat_toNat_div_two : BitVec.ofNat 8 (a.toNat / 2) = a >>> 1 := by
  apply BitVec.eq_of_toNat_eq
  have ha := a.isLt
  rw [BitVec.toNat_ofNat, BitVec.toNat_ushiftRight, Nat.shiftRight_eq_div_pow, Nat.mod_eq_of_lt (by omega), pow_one]

theorem ofNat_toNat_mul_two : BitVec.ofNat 8 (a.toNat * 2) = a <<< 1 := by
  apply BitVec.eq_of_toNat_eq
  rw [BitVec.toNat_ofNat, BitVec.toNat_shiftLeft, Nat.shiftLeft_eq, pow_one]

/-! ### Flags in integer terms (R120) -/

theorem noBorrow_eq_decide_le : noBorrow a b = decide (b.toNat ≤ a.toNat) := by
  simp only [noBorrow, ← decide_not, Nat.not_lt]

/-- The bit shift-right loses is the parity. -/
theorem lowBit_eq_decide_odd : lowBit a = decide (a.toNat % 2 = 1) := Nat.testBit_zero a.toNat

/-- The bit shift-left loses is the sign bit, set from 128 on. -/
theorem highBit_eq_decide_ge : highBit a = decide (128 ≤ a.toNat) :=
  (BitVec.msb_eq_getLsbD_last a).symm.trans (BitVec.msb_eq_decide a)

end Bytes

/-! ### The obligations -/

/-- Settles O22: each of the five is one WriteRF, whose result and flag are the integer ones by the lemmas above; the
sum and its carry are so by definition. -/
theorem flagInstructionsWriteResultAndFlag : Obligations.FlagInstructionsWriteResultAndFlag := by
  rintro x y s _ _ rfl rfl
  refine ⟨?add, ?sub, ?subRev, ?shiftRight, ?shiftLeft⟩
  case add => rw [← BitVec.add_def]; rfl
  case sub | subRev => rw [ofNat_toNat_sub_toNat, ← noBorrow_eq_decide_le]; rfl
  case shiftRight => rw [ofNat_toNat_div_two, ← lowBit_eq_decide_odd]; rfl
  case shiftLeft => rw [ofNat_toNat_mul_two, ← highBit_eq_decide_ge]; rfl

/-- Settles O20: each of the three is one register write; the sum of add-imm wraps as `BitVec` addition does. -/
theorem setAndAddImmWriteOneRegister : Obligations.SetAndAddImmWriteOneRegister := by
  intro x y nn s
  refine ⟨writesOneReg_of_exec_eq_setV rfl, ?addImm, writesOneReg_of_exec_eq_setV rfl⟩
  case addImm =>
    obtain ⟨t, hexec, hv, hframe⟩ := writesOneReg_of_exec_eq_setV (i := .addImm x nn) (s := s) rfl
    exact ⟨t, hexec, by rw [hv, BitVec.toNat_add], hframe⟩

end Sys2Proof.Machine
end

section
/-! Proofs of the statements on the index register and the digit converter (42_index_memory.md). The converter is proved
by one invariant of its loop: the accumulator packs a number below 256000, the decimal digits of its upper part above its
low byte, and an iteration doubles that number. -/

namespace Sys2Proof.Machine

/-! ### Writing the index register -/

theorem sameBut_setI (s : State) (w : Word) : SameBut [.index] s (s.setI w) := by
  intro p hp
  cases p with
  | index => exact absurd (List.mem_singleton_self _) hp
  | _ => simp [Same]

/-! ### One iteration of the digit converter (R143) -/

section Converter

variable {acc : BitVec 20} {slot hi d lo : Nat}

theorem toNat_bcdSlot : (bcdSlot acc slot).toNat = (acc.extractLsb' slot 4).toNat :=
  BitVec.toNat_setWidth_of_le (by decide)

/-- A slot holds the digit that stands between the bits above it and the bits below. -/
theorem toNat_slot_eq_digit (hacc : acc.toNat = (hi * 16 + d) * 2 ^ slot + lo) (hd : d < 10) (hlo : lo < 2 ^ slot) :
    (acc.extractLsb' slot 4).toNat = d := by
  rw [BitVec.extractLsb'_toNat, Nat.shiftRight_eq_div_pow, hacc, Nat.add_comm,
    Nat.add_mul_div_right _ _ (Nat.two_pow_pos slot), Nat.div_eq_of_lt hlo]
  omega

/-- A correction adds 3 to the digit of its slot when that is 5 or more, and keeps the bits above and below. -/
theorem toNat_bcdCorrect (hacc : acc.toNat = (hi * 16 + d) * 2 ^ slot + lo) (hd : d < 10) (hlo : lo < 2 ^ slot)
    (hroom : (hi * 16 + (d + 3)) * 2 ^ slot + lo < 2 ^ 20) :
    (bcdCorrect acc slot).toNat = (hi * 16 + (d + 3 * (d / 5))) * 2 ^ slot + lo := by
  have hsum : (hi * 16 + (d + 3)) * 2 ^ slot + lo = acc.toNat + 3 * 2 ^ slot := by rw [hacc]; ring
  have hthree : (3#20 <<< slot).toNat = 3 * 2 ^ slot := by
    rw [BitVec.toNat_shiftLeft, Nat.shiftLeft_eq]
    exact Nat.mod_eq_of_lt (lt_of_le_of_lt (Nat.le_add_left _ _) (hsum ▸ hroom))
  rw [bcdCorrect, toNat_slot_eq_digit hacc hd hlo]
  split
  case isTrue hfive =>
    have hcarry : d / 5 = 1 := by omega
    rw [BitVec.toNat_add, hthree, ← hsum, hcarry]
    exact Nat.mod_eq_of_lt hroom
  case isFalse hfive =>
    have hcarry : d / 5 = 0 := by omega
    rw [hacc, hcarry, Nat.mul_zero, Nat.add_zero]

/-- On decimal digits, the hundreds below 5, an iteration adds 3 to each digit from 5 on and doubles the whole. -/
theorem toNat_bcdIter {a b c r : Nat} (hacc : acc.toNat = a * 65536 + b * 4096 + c * 256 + r)
    (ha : a < 5) (hb : b < 10) (hc : c < 10) (hr : r < 256) :
    (bcdIter acc).toNat = 2 * (a * 65536 + (b + 3 * (b / 5)) * 4096 + (c + 3 * (c / 5)) * 256 + r) := by
  have hones := toNat_bcdCorrect (slot := 8) (hi := a * 16 + b) (d := c) (lo := r)
    (hacc.trans (by omega)) hc hr (by omega)
  have htens := toNat_bcdCorrect (slot := 12) (hi := a) (d := b) (lo := (c + 3 * (c / 5)) * 256 + r)
    (hones.trans (by omega)) hb (by omega) (by omega)
  have hhundreds := toNat_bcdCorrect (slot := 16) (hi := 0) (d := a)
    (lo := (b + 3 * (b / 5)) * 4096 + (c + 3 * (c / 5)) * 256 + r)
    (htens.trans (by omega)) (by omega) (by omega) (by omega)
  rw [bcdIter, BitVec.toNat_shiftLeft, hhundreds, Nat.shiftLeft_eq, pow_one, Nat.mod_eq_of_lt (by omega)]
  omega

/-! ### The invariant of the loop -/

/-- The accumulator packs `m`: the decimal digits of `m / 256` in the slots above the byte `m % 256`. -/
def BcdPacks (acc : BitVec 20) (m : Nat) : Prop :=
  ∃ a b c r, b < 10 ∧ c < 10 ∧ r < 256 ∧ m = (100 * a + 10 * b + c) * 256 + r ∧
    acc.toNat = a * 65536 + b * 4096 + c * 256 + r

/-- The carry out of a doubled digit `d` is `d / 5`, whatever comes in; a correction turns it into a carry of 16. -/
theorem bcdPacks_bcdIter {m : Nat} (hpacks : BcdPacks acc m) (hm : 2 * m < 256000) :
    BcdPacks (bcdIter acc) (2 * m) := by
  obtain ⟨a, b, c, r, hb, hc, hr, rfl, hacc⟩ := hpacks
  have hiter := toNat_bcdIter hacc (by omega) hb hc hr
  exact ⟨2 * a + b / 5, 2 * b + c / 5 - 10 * (b / 5), 2 * c + r / 128 - 10 * (c / 5), 2 * r - 256 * (r / 128),
    by omega, by omega, by omega, by omega, by omega⟩

theorem bcdPacks_bcdLoop (k : Nat) {m : Nat} (hpacks : BcdPacks acc m) (hm : 2 ^ k * m < 256000) :
    BcdPacks (bcdLoop k acc) (2 ^ k * m) := by
  induction k generalizing acc m with
  | zero => simpa [bcdLoop] using hpacks
  | succ k ih =>
    rw [pow_succ, Nat.mul_assoc] at hm ⊢
    have hdouble : 2 * m < 256000 := lt_of_le_of_lt (Nat.le_mul_of_pos_left _ (Nat.two_pow_pos k)) hm
    exact ih (bcdPacks_bcdIter hpacks hdouble) hm

/-- A byte with empty slots above it packs itself: the loop's start. -/
theorem bcdPacks_setWidth (v : Byte) : BcdPacks (v.setWidth 20) v.toNat := by
  have hv := v.isLt
  exact ⟨0, 0, 0, v.toNat, by decide, by decide, hv, by omega,
    (BitVec.toNat_setWidth_of_le (by decide)).trans (by omega)⟩

end Converter

/-! ### The obligations -/

/-- Settles O26: the meaning of set-index is one write of I. -/
theorem setIndexWritesTheAddress : Obligations.SetIndexWritesTheAddress :=
  fun nnn s => ⟨s.setI (zext16 nnn), rfl, toNat_zext16 nnn (by decide), sameBut_setI s _⟩

/-- Settles O28: eight iterations double the byte to `256 * v`, whose packing holds the digits of `v` in the slots. -/
theorem digitConverterGivesDecimalDigits : Obligations.DigitConverterGivesDecimalDigits := by
  intro v
  have hv := v.isLt
  obtain ⟨a, b, c, r, hb, hc, hr, hdigits, hacc⟩ := bcdPacks_bcdLoop 8 (bcdPacks_setWidth v) (by omega)
  have hhundreds := toNat_slot_eq_digit (slot := 16) (hi := 0) (d := a) (lo := b * 4096 + c * 256 + r)
    (hacc.trans (by omega)) (by omega) (by omega)
  have htens := toNat_slot_eq_digit (slot := 12) (hi := a) (d := b) (lo := c * 256 + r)
    (hacc.trans (by omega)) hb (by omega)
  have hones := toNat_slot_eq_digit (slot := 8) (hi := a * 16 + b) (d := c) (lo := r)
    (hacc.trans (by omega)) hc hr
  simp only [bcd3, List.map_cons, List.map_nil, toNat_bcdSlot, hhundreds, htens, hones, List.cons.injEq, and_true]
  exact ⟨by omega, by omega, by omega⟩

end Sys2Proof.Machine
end

section
/-! Proofs of the statements on the framebuffer controller (43_display.md). First layer: what writing the framebuffer
leaves unchanged. -/

namespace Sys2Proof.Machine

/-! ### Writing the framebuffer -/

theorem sameBut_setFb (s : State) (g : Grid) : SameBut [.screen] s (s.setFb g) := by
  intro p hp
  cases p with
  | screen => exact absurd (List.mem_singleton_self _) hp
  | _ => simp [Same]

/-! ### The obligations -/

/-- Settles O35: the meaning of clear-screen is one write of the blank grid. -/
theorem clearScreenUnlightsEveryCell : Obligations.ClearScreenUnlightsEveryCell :=
  fun s => ⟨s.setFb Grid.blank, rfl, Grid.lit_blank, sameBut_setFb s _⟩

end Sys2Proof.Machine
end

section
/-! Proofs of the statements on the keypad and the timers (44_keys_timers.md). First layer: what writing a timer leaves
unchanged, and when a tick answers SoundEvent. -/

namespace Sys2Proof.Machine

/-! ### Writing a timer -/

theorem sameBut_setDT (s : State) (v : Byte) : SameBut [.delay] s (s.setDT v) := by
  intro p hp
  cases p with
  | delay => exact absurd (List.mem_singleton_self _) hp
  | _ => simp [Same]

theorem sameBut_setST (s : State) (v : Byte) : SameBut [.sound] s (s.setST v) := by
  intro p hp
  cases p with
  | sound => exact absurd (List.mem_singleton_self _) hp
  | _ => simp [Same]

/-! ### The sound edge (R216) -/

theorem soundEdge_iff (s : State) : soundEdge s = true ↔ s.st = 1#8 := beq_iff_eq

/-- A tick has two replies, told apart by the sound edge of the state before it. -/
theorem replyTo_tickTimers_eq_soundEvent_iff (s : State) : replyTo .tickTimers s = .soundEvent ↔ s.st = 1#8 := by
  rw [← soundEdge_iff]
  cases h : soundEdge s with
  | true => simp [replyTo, h]
  | false => simp [replyTo, h]

/-! ### The obligations -/

/-- Settles O41: read-delay is one register write and the other two are one timer write each; the edge set-sound arms
is that of the value it left in ST. -/
theorem timerInstructionsMoveOneByte : Obligations.TimerInstructionsMoveOneByte :=
  fun x s => ⟨writesOneReg_of_exec_eq_setV rfl,
    ⟨s.setDT (s.getV x), rfl, rfl, sameBut_setDT s _⟩,
    ⟨s.setST (s.getV x), rfl, rfl, sameBut_setST s _, replyTo_tickTimers_eq_soundEvent_iff _⟩⟩

end Sys2Proof.Machine
end

section
/-! Proofs of the statements on the host interface (60_exceptions.md). First layer: where a cell of the grid stands in
its row-major view, and a timer's tick as integer arithmetic. -/

namespace Sys2Proof.Machine

/-! ### The row-major view (R32, R225) -/

/-- The list of rows' lists is the list of the one flat vector, whose length and cells the library knows. -/
theorem Grid.rowMajor_eq_toList_flatten (g : Grid) : Grid.rowMajor g = g.flatten.toList := by
  calc Grid.rowMajor g
    _ = (g.toArray.toList.map (Array.toList ∘ Vector.toArray)).flatten := List.flatMap_def
    _ = (g.toArray.map Vector.toArray).flatten.toList := by simp

@[simp] theorem Grid.length_rowMajor (g : Grid) : (Grid.rowMajor g).length = 2048 := by
  rw [Grid.rowMajor_eq_toList_flatten, Vector.length_toList]

theorem Grid.getElem?_rowMajor (g : Grid) (row : Fin 32) (col : Fin 64) :
    (Grid.rowMajor g)[row.val * 64 + col.val]? = some (Grid.lit g (row, col)) := by
  have hpos : row.val * 64 + col.val < 32 * 64 := by omega
  have hrow : (row.val * 64 + col.val) / 64 = row.val := by omega
  have hcol : (row.val * 64 + col.val) % 64 = col.val := by omega
  rw [Grid.rowMajor_eq_toList_flatten, Vector.getElem?_toList, Vector.getElem?_flatten, dif_pos hpos]
  simp [Grid.lit, hrow, hcol]

/-! ### A tick (R215) -/

/-- R215 as truncated subtraction: a timer at 0 stays there. -/
theorem toNat_tickDown (t : Byte) : (tickDown t).toNat = t.toNat - 1 := by
  unfold tickDown
  split
  case isTrue h => simp [h]
  case isFalse h =>
    have hpos : 1 ≤ t.toNat := Nat.one_le_iff_ne_zero.mpr fun h0 => h (BitVec.eq_of_toNat_eq h0)
    exact BitVec.toNat_sub_of_le hpos

/-- A tick is one write of each timer. -/
theorem tickTimers_eq_setDT_setST (s : State) : tickTimers s = (s.setDT (tickDown s.dt)).setST (tickDown s.st) := rfl

theorem sameBut_tickTimers (s : State) : SameBut [.delay, .sound] s (tickTimers s) := by
  rw [tickTimers_eq_setDT_setST]
  exact (sameBut_setDT s _).trans (sameBut_setST _ _) (by simp) (by simp)

/-- R216 where the tick is not the edge: the other of its two replies. -/
theorem replyTo_tickTimers_eq_noSound {s : State} (h : s.st ≠ 1#8) : replyTo .tickTimers s = .noSound :=
  if_neg (mt (soundEdge_iff s).mp h)

/-! ### The obligations -/

/-- Settles O47: display is the identity on the state and replies the row-major view of its grid. -/
theorem displayReturnsTheGridRowMajor : Obligations.DisplayReturnsTheGridRowMajor :=
  fun s => ⟨rfl, Grid.rowMajor s.fb, rfl, Grid.length_rowMajor s.fb, Grid.getElem?_rowMajor s.fb⟩

/-- Settles O42: both timers tick down, and the two replies are told apart by the value of ST before the tick. -/
theorem tickDecrementsTheTimers : Obligations.TickDecrementsTheTimers := by
  intro s
  have hst : s.st = 1#8 ↔ s.st.toNat = 1 := BitVec.toNat_inj.symm
  exact ⟨tickTimers s, rfl, toNat_tickDown s.dt, toNat_tickDown s.st, sameBut_tickTimers s,
    fun h => (replyTo_tickTimers_eq_soundEvent_iff s).mpr (hst.mpr h),
    fun h => replyTo_tickTimers_eq_noSound (mt hst.mp h)⟩

end Sys2Proof.Machine
end

section
/-! Proofs of the statements on reset (70_reset_and_hazards.md). First layer: what reads give after a reset, and which
parts of the state they make those of State.reset. -/

namespace Sys2Proof.Machine

/-! ### The core after reset (R241) -/

@[simp] theorem State.getV_resetCore (s : State) (r : Nibble) : (resetCore s).getV r = State.reset.getV r := rfl
@[simp] theorem State.key_resetCore (s : State) (k : Fin 16) : (resetCore s).key k = State.reset.key k := rfl
@[simp] theorem State.lit_resetCore (s : State) (c : CellPos) : (resetCore s).lit c = State.reset.lit c := rfl
@[simp] theorem State.readByte_resetCore (s : State) (a : Nat) : (resetCore s).readByte a = State.reset.readByte a := rfl

/-- A reset forgets the core it was given; only the host's script and draw count are that state's own. -/
theorem sameBut_reset_resetCore (s : State) : SameBut [.host] State.reset (resetCore s) := by
  intro p hp
  cases p with
  | host => exact absurd (List.mem_singleton_self _) hp
  | _ => simp [Same]

/-! ### The obligations -/

/-- Settles O45: reset and init are one function, which answers without a fault. -/
theorem resetRestoresTheInitState : Obligations.ResetRestoresTheInitState :=
  fun s => ⟨resetCore s, rfl, rfl, sameBut_reset_resetCore s⟩

end Sys2Proof.Machine
end

section
/-! Proofs of the statements on the encoding (30_encoding.md R70 to R78). First layer: a word is made of its fields in
every format, everything each group of the decoder can answer, and the fields that a match with a row fixes. -/

namespace Sys2Proof

/-! ### A word is made of its fields (R71) -/

theorem encAddr_of_fields {w : Word} {op : Nibble} (hop : opOf w = op) : encAddr op (nnnOf w) = w := by
  subst hop
  apply BitVec.eq_of_getLsbD_eq
  intro k hk
  simp only [getLsbD_encAddr, opOf, nnnOf, BitVec.getLsbD_extractLsb']
  interval_cases k <;> simp

theorem encXNN_of_fields {w : Word} {op : Nibble} {nn : Byte} (hop : opOf w = op) (hnn : nnOf w = nn) :
    encXNN op (xOf w) nn = w := by
  subst hop hnn
  apply BitVec.eq_of_getLsbD_eq
  intro k hk
  simp only [getLsbD_encXNN, opOf, xOf, nnOf, BitVec.getLsbD_extractLsb']
  interval_cases k <;> simp

theorem encXYN_of_fields {w : Word} {op n : Nibble} (hop : opOf w = op) (hn : nOf w = n) :
    encXYN op (xOf w) (yOf w) n = w := by
  subst hop hn
  apply BitVec.eq_of_getLsbD_eq
  intro k hk
  simp only [getLsbD_encXYN, opOf, xOf, yOf, nOf, BitVec.getLsbD_extractLsb']
  interval_cases k <;> simp

/-- Masking the `y` nibble away is writing it as 0 (log 27). -/
theorem encXYN_and_noY (op x y n : Nibble) : encXYN op x y n &&& 0xFF0F#16 = encXYN op x 0#4 n := by
  apply BitVec.eq_of_getLsbD_eq
  intro k hk
  simp only [BitVec.getLsbD_and, getLsbD_encXYN]
  interval_cases k <;> simp

/-! ### Decoding an encoded word -/

/-- R74: the no-op's `nnn` is neither of the two that other rows take. -/
theorem wf_noOp_iff (nnn : Addr12) : (Instr.noOp nnn).wf = true ↔ nnn ≠ 0x0E0#12 ∧ nnn ≠ 0x0EE#12 := by
  simp [Instr.wf, Instr.wfWith]

theorem encAddr_ne_of_nnnOf_ne {op : Nibble} {nnn : Addr12} {w : Word} (h : nnnOf w ≠ nnn) : encAddr op nnn ≠ w :=
  fun hw => h (by rw [← hw, nnnOf_encAddr])

/-- A well-formed no-op passes the two tests the decoder makes before it (R74). -/
theorem decode_encode_noOp {nnn : Addr12} (h : (Instr.noOp nnn).wf = true) :
    decode (encode (.noOp nnn)) = .ok (.noOp nnn) := by
  obtain ⟨hclear, hret⟩ := (wf_noOp_iff nnn).mp h
  have hclear' : encAddr 0#4 nnn ≠ 0x00E0#16 :=
    encAddr_ne_of_nnnOf_ne (by rw [show nnnOf 0x00E0#16 = 0x0E0#12 by decide]; exact hclear.symm)
  have hret' : encAddr 0#4 nnn ≠ 0x00EE#16 :=
    encAddr_ne_of_nnnOf_ne (by rw [show nnnOf 0x00EE#16 = 0x0EE#12 by decide]; exact hret.symm)
  simp [decode, decodeWith, decodeSys, encode, hclear', hret']

/-- Settles O1: each format gives back the fields it was made of, and these pick the decoder's branch. -/
theorem decodeOfEncodeGivesTheInstruction : Obligations.DecodeOfEncodeGivesTheInstruction := by
  intro i hwf
  cases i with
  | noOp nnn => exact decode_encode_noOp hwf
  | clearScreen | ret => decide
  | jump | call | skipEqImm | skipNeImm | skipEqReg | setImm | addImm | skipNeReg | setIndex | jumpOffset | random
  | draw => simp [decode, decodeWith, encode]
  | setReg | orReg | andReg | xorReg | addReg | subReg | shiftRight | subRegRev | shiftLeft =>
    simp [decode, decodeWith, decodeAlu, encode]
  | skipIfKey | skipIfNotKey => simp [decode, decodeWith, decodeKey, encode]
  | readDelay | waitKey | setDelay | setSound | addIndex | setIndexFont | storeBcd | storeRegs | loadRegs =>
    simp [decode, decodeWith, decodeMisc, encode]

/-! ### Everything each group of the decoder can answer (R75, R77) -/

/-- A word as the encoder writes it for an instruction: the shifts take `y = 0` (R78). -/
def writtenWord (i : Instr) (w : Word) : Word :=
  match i with
  | .shiftRight _ => w &&& 0xFF0F#16
  | .shiftLeft _ => w &&& 0xFF0F#16
  | _ => w

/-- The instruction the decoder answered is well-formed and its word is the one that was decoded. -/
def Encodes (i : Instr) (w : Word) : Prop := i.wf = true ∧ encode i = writtenWord i w

theorem encode_shift_of_fields {w : Word} {n : Nibble} (hop : opOf w = 8#4) (hn : nOf w = n) :
    encXYN 8#4 (xOf w) 0#4 n = w &&& 0xFF0F#16 := by
  rw [← encXYN_and_noY _ _ (yOf w), encXYN_of_fields hop hn]

/-- The 8xyf group decodes, or `f` is none of the table's nine. -/
theorem decodeAlu_cases {w : Word} (hop : opOf w = 8#4) :
    (∃ i, decodeAlu w = .ok i ∧ Encodes i w ∧ nOf w ∉ [0x8#4, 0x9#4, 0xA#4, 0xB#4, 0xC#4, 0xD#4, 0xF#4]) ∨
    (decodeAlu w = .error (.illegalWord w) ∧ nOf w ∈ [0x8#4, 0x9#4, 0xA#4, 0xB#4, 0xC#4, 0xD#4, 0xF#4]) := by
  unfold decodeAlu
  split
  case h_10 =>
    refine .inr ⟨rfl, ?_⟩
    have hlt := (nOf w).isLt
    simp only [imp_false, List.mem_cons, List.not_mem_nil, or_false, ← BitVec.toNat_inj, BitVec.toNat_ofNat] at *
    omega
  case h_7 hn | h_9 hn => -- the two shifts
    obtain ⟨-, hn'⟩ := BitVec.toNat_eq_nat.mp hn
    exact .inl ⟨_, rfl, ⟨rfl, encode_shift_of_fields hop hn'⟩, by rw [hn']; decide⟩
  all_goals
    rename_i hn
    obtain ⟨-, hn'⟩ := BitVec.toNat_eq_nat.mp hn
    exact .inl ⟨_, rfl, ⟨rfl, encXYN_of_fields hop hn'⟩, by rw [hn']; decide⟩

/-- The Exff group decodes, or `ff` is neither of the table's two. -/
theorem decodeKey_cases {w : Word} (hop : opOf w = 0xE#4) :
    (∃ i, decodeKey w = .ok i ∧ Encodes i w ∧ nnOf w ∈ [0x9E#8, 0xA1#8]) ∨
    (decodeKey w = .error (.illegalWord w) ∧ nnOf w ∉ [0x9E#8, 0xA1#8]) := by
  unfold decodeKey
  split
  case h_3 => exact .inr ⟨rfl, by simpa [← BitVec.toNat_inj] using And.intro ‹_› ‹_›⟩
  all_goals
    rename_i hnn
    obtain ⟨-, hnn'⟩ := BitVec.toNat_eq_nat.mp hnn
    exact .inl ⟨_, rfl, ⟨rfl, encXNN_of_fields hop hnn'⟩, by rw [hnn']; decide⟩

/-- The Fxff group decodes, or `ff` is none of the table's nine. -/
theorem decodeMisc_cases {w : Word} (hop : opOf w = 0xF#4) :
    (∃ i, decodeMisc w = .ok i ∧ Encodes i w ∧
      nnOf w ∈ [0x07#8, 0x0A#8, 0x15#8, 0x18#8, 0x1E#8, 0x29#8, 0x33#8, 0x55#8, 0x65#8]) ∨
    (decodeMisc w = .error (.illegalWord w) ∧
      nnOf w ∉ [0x07#8, 0x0A#8, 0x15#8, 0x18#8, 0x1E#8, 0x29#8, 0x33#8, 0x55#8, 0x65#8]) := by
  unfold decodeMisc
  split
  case h_10 =>
    refine .inr ⟨rfl, ?_⟩
    simp only [imp_false, List.mem_cons, List.not_mem_nil, or_false, ← BitVec.toNat_inj, BitVec.toNat_ofNat] at *
    omega
  all_goals
    rename_i hnn
    obtain ⟨-, hnn'⟩ := BitVec.toNat_eq_nat.mp hnn
    exact .inl ⟨_, rfl, ⟨rfl, encXNN_of_fields hop hnn'⟩, by rw [hnn']; decide⟩

/-- The 0nnn group decodes every word (R74, R76). -/
theorem decodeSys_cases {w : Word} (hop : opOf w = 0#4) : ∃ i, decodeSys .nop w = .ok i ∧ Encodes i w := by
  unfold decodeSys
  split
  case isTrue h => exact ⟨_, rfl, rfl, h.symm⟩
  case isFalse hclear =>
    split
    case isTrue h => exact ⟨_, rfl, rfl, h.symm⟩
    case isFalse hret =>
      have hencode : encAddr 0#4 (nnnOf w) = w := encAddr_of_fields hop
      have hwf : (Instr.noOp (nnnOf w)).wf = true := (wf_noOp_iff _).mpr
        ⟨fun h => hclear (by rw [← hencode, h]; decide), fun h => hret (by rw [← hencode, h]; decide)⟩
      exact ⟨_, by simp, hwf, hencode⟩

/-- The words R77 lists as illegal. -/
def ListedIllegal (w : Word) : Prop :=
  (opOf w = 0x5#4 ∧ nOf w ≠ 0#4) ∨ (opOf w = 0x9#4 ∧ nOf w ≠ 0#4) ∨
  (opOf w = 0x8#4 ∧ nOf w ∈ [0x8#4, 0x9#4, 0xA#4, 0xB#4, 0xC#4, 0xD#4, 0xF#4]) ∨
  (opOf w = 0xE#4 ∧ nnOf w ∉ [0x9E#8, 0xA1#8]) ∨
  (opOf w = 0xF#4 ∧ nnOf w ∉ [0x07#8, 0x0A#8, 0x15#8, 0x18#8, 0x1E#8, 0x29#8, 0x33#8, 0x55#8, 0x65#8])

/-- Everything the decoder can answer: an instruction that encodes the word, or the word as a listed illegal one. -/
theorem decode_cases (w : Word) :
    (∃ i, decode w = .ok i ∧ Encodes i w ∧ ¬ ListedIllegal w) ∨
    (decode w = .error (.illegalWord w) ∧ ListedIllegal w) := by
  unfold decode decodeWith
  split
  case h_1 h => -- 0nnn
    obtain ⟨-, hop⟩ := BitVec.toNat_eq_nat.mp h
    obtain ⟨i, hi, henc⟩ := decodeSys_cases hop
    exact .inl ⟨i, hi, henc, by simp [ListedIllegal, hop]⟩
  case h_6 h | h_10 h => -- 5xy0, 9xy0
    obtain ⟨-, hop⟩ := BitVec.toNat_eq_nat.mp h
    split
    case isTrue hn => exact .inl ⟨_, rfl, ⟨rfl, encXYN_of_fields hop hn⟩, by simp [ListedIllegal, hop, hn]⟩
    case isFalse hn => exact .inr ⟨rfl, by simp [ListedIllegal, hop, hn]⟩
  case h_9 h => -- 8xyf
    obtain ⟨-, hop⟩ := BitVec.toNat_eq_nat.mp h
    rcases decodeAlu_cases hop with ⟨i, hi, henc, hn⟩ | ⟨hi, hn⟩
    · exact .inl ⟨i, hi, henc, by simp only [ListedIllegal, hop, hn]; simp⟩
    · exact .inr ⟨hi, by simp [ListedIllegal, hop, hn]⟩
  case h_15 h => -- Exff
    obtain ⟨-, hop⟩ := BitVec.toNat_eq_nat.mp h
    rcases decodeKey_cases hop with ⟨i, hi, henc, hnn⟩ | ⟨hi, hnn⟩
    · exact .inl ⟨i, hi, henc, by simp only [ListedIllegal, hop, hnn]; simp⟩
    · exact .inr ⟨hi, by simp [ListedIllegal, hop, hnn]⟩
  case h_16 => -- Fxff
    have hop : opOf w = 0xF#4 := by
      have hlt := (opOf w).isLt
      simp only [imp_false, ← BitVec.toNat_inj, BitVec.toNat_ofNat] at *
      omega
    rcases decodeMisc_cases hop with ⟨i, hi, henc, hnn⟩ | ⟨hi, hnn⟩
    · exact .inl ⟨i, hi, henc, by simp only [ListedIllegal, hop, hnn]; simp⟩
    · exact .inr ⟨hi, by simp [ListedIllegal, hop, hnn]⟩
  case h_2 h | h_3 h | h_11 h | h_12 h => -- format ADDR
    obtain ⟨-, hop⟩ := BitVec.toNat_eq_nat.mp h
    exact .inl ⟨_, rfl, ⟨rfl, encAddr_of_fields hop⟩, by simp [ListedIllegal, hop]⟩
  case h_4 h | h_5 h | h_7 h | h_8 h | h_13 h => -- format XNN
    obtain ⟨-, hop⟩ := BitVec.toNat_eq_nat.mp h
    exact .inl ⟨_, rfl, ⟨rfl, encXNN_of_fields hop rfl⟩, by simp [ListedIllegal, hop]⟩
  case h_14 h => -- draw, format XYN
    obtain ⟨-, hop⟩ := BitVec.toNat_eq_nat.mp h
    exact .inl ⟨_, rfl, ⟨rfl, encXYN_of_fields hop rfl⟩, by simp [ListedIllegal, hop]⟩

theorem encodes_of_decode {w : Word} {i : Instr} (h : decode w = .ok i) : Encodes i w := by
  rcases decode_cases w with ⟨j, hj, henc, -⟩ | ⟨herr, -⟩
  · obtain rfl : j = i := Except.ok.inj (hj.symm.trans h)
    exact henc
  · exact nomatch herr.symm.trans h

/-- Settles O2, from what the decoder can answer. -/
theorem encodeOfDecodeGivesTheWord : Obligations.EncodeOfDecodeGivesTheWord := by
  intro w i h
  obtain ⟨hwf, hencode⟩ := encodes_of_decode h
  exact ⟨hwf, by rw [hencode]; cases i <;> rfl⟩

/-- Settles O4, from what the decoder can answer. -/
theorem illegalWordsAreTheListedOnes : Obligations.IllegalWordsAreTheListedOnes := by
  intro w
  change _ ∧ (_ ↔ ListedIllegal w)
  rcases decode_cases w with ⟨i, hi, -, hlegal⟩ | ⟨herr, hillegal⟩
  · exact ⟨.inl ⟨i, hi⟩, by simp [hi, hlegal]⟩
  · exact ⟨.inr herr, by simp [herr, hillegal]⟩

/-! ### The opcode table (R73, R74) -/

/-- The word of every instruction matches the instruction's own row. -/
theorem encode_and_mask (i : Instr) : encode i &&& i.row.mask = i.row.pattern := by
  cases i
  exacts [Laws.RowFits.noOp _, Laws.RowFits.clearScreen, Laws.RowFits.ret, Laws.RowFits.jump _, Laws.RowFits.call _,
    Laws.RowFits.skipEqImm _ _, Laws.RowFits.skipNeImm _ _, Laws.RowFits.skipEqReg _ _, Laws.RowFits.setImm _ _,
    Laws.RowFits.addImm _ _, Laws.RowFits.setReg _ _, Laws.RowFits.orReg _ _, Laws.RowFits.andReg _ _,
    Laws.RowFits.xorReg _ _, Laws.RowFits.addReg _ _, Laws.RowFits.subReg _ _, Laws.RowFits.shiftRight _,
    Laws.RowFits.subRegRev _ _, Laws.RowFits.shiftLeft _, Laws.RowFits.skipNeReg _ _, Laws.RowFits.setIndex _,
    Laws.RowFits.jumpOffset _, Laws.RowFits.random _ _, Laws.RowFits.draw _ _ _, Laws.RowFits.skipIfKey _,
    Laws.RowFits.skipIfNotKey _, Laws.RowFits.readDelay _, Laws.RowFits.waitKey _, Laws.RowFits.setDelay _,
    Laws.RowFits.setSound _, Laws.RowFits.addIndex _, Laws.RowFits.setIndexFont _, Laws.RowFits.storeBcd _,
    Laws.RowFits.storeRegs _, Laws.RowFits.loadRegs _]

/-- No row's mask covers the `y` nibble of a shift. -/
theorem writtenWord_and_mask (i : Instr) (w : Word) : writtenWord i w &&& i.row.mask = w &&& i.row.mask := by
  cases i with
  | shiftRight | shiftLeft => simp only [writtenWord, Instr.row, BitVec.and_assoc]; rfl
  | _ => rfl

theorem and_mask_of_decode {w : Word} {i : Instr} (h : decode w = .ok i) : w &&& i.row.mask = i.row.pattern := by
  obtain ⟨-, hencode⟩ := encodes_of_decode h
  rw [← writtenWord_and_mask, ← hencode, encode_and_mask]

theorem opOf_and (w m : Word) : opOf (w &&& m) = opOf w &&& opOf m := BitVec.extractLsb'_and
theorem nOf_and (w m : Word) : nOf (w &&& m) = nOf w &&& nOf m := BitVec.extractLsb'_and
theorem nnOf_and (w m : Word) : nnOf (w &&& m) = nnOf w &&& nnOf m := BitVec.extractLsb'_and

/-- Every row fixes `op`. -/
theorem opOf_mask (j : Instr) : opOf j.row.mask = BitVec.allOnes 4 := by
  cases j <;> simp [Instr.row, opOf]

theorem nOf_maskXYF : nOf 0xF00F#16 = BitVec.allOnes 4 := by decide
theorem nnOf_maskXFF : nnOf 0xF0FF#16 = BitVec.allOnes 8 := by decide

/-- A word that matches the row of `j` agrees with the word of `j` in every field the row fixes. -/
theorem opOf_eq_of_and_mask {w : Word} {j : Instr} (h : w &&& j.row.mask = j.row.pattern) :
    opOf w = opOf (encode j) := by
  have hand := congrArg opOf (h.trans (encode_and_mask j).symm)
  simpa only [opOf_and, opOf_mask, BitVec.and_allOnes] using hand

theorem nOf_eq_of_and_mask {w : Word} {j : Instr} (h : w &&& j.row.mask = j.row.pattern)
    (hn : nOf j.row.mask = BitVec.allOnes 4) : nOf w = nOf (encode j) := by
  have hand := congrArg nOf (h.trans (encode_and_mask j).symm)
  simpa only [nOf_and, hn, BitVec.and_allOnes] using hand

theorem nnOf_eq_of_and_mask {w : Word} {j : Instr} (h : w &&& j.row.mask = j.row.pattern)
    (hnn : nnOf j.row.mask = BitVec.allOnes 8) : nnOf w = nnOf (encode j) := by
  have hand := congrArg nnOf (h.trans (encode_and_mask j).symm)
  simpa only [nnOf_and, hnn, BitVec.and_allOnes] using hand

/-- A word of the no-op's row goes to a fixed word's row first (R74). -/
theorem decode_of_opOf_zero {w : Word} (hop : opOf w = 0#4) :
    (w = 0x00E0#16 ∧ decode w = .ok .clearScreen) ∨ (w = 0x00EE#16 ∧ decode w = .ok .ret) ∨
    decode w = .ok (.noOp (nnnOf w)) := by
  by_cases hclear : w = 0x00E0#16
  · exact .inl ⟨hclear, by rw [hclear]; decide⟩
  · by_cases hret : w = 0x00EE#16
    · exact .inr (.inl ⟨hret, by rw [hret]; decide⟩)
    · exact .inr (.inr (by simp [decode, decodeWith, decodeSys, hop, hclear, hret]))

/-- A word that matches a row decodes to an instruction of that row, the two fixed words of row 0nnn apart. -/
theorem decode_of_and_mask {w : Word} {j : Instr} (h : w &&& j.row.mask = j.row.pattern) :
    ∃ i, decode w = .ok i ∧
      (i.row = j.row ∨ (j.row = ⟨0xF000#16, 0x0000#16⟩ ∧ (w = 0x00E0#16 ∨ w = 0x00EE#16))) := by
  have hop := opOf_eq_of_and_mask h
  cases j with
  | noOp nnn =>
    rcases decode_of_opOf_zero (hop.trans (opOf_encAddr _ _)) with ⟨hw, hd⟩ | ⟨hw, hd⟩ | hd
    · exact ⟨_, hd, .inr ⟨rfl, .inl hw⟩⟩
    · exact ⟨_, hd, .inr ⟨rfl, .inr hw⟩⟩
    · exact ⟨_, hd, .inl rfl⟩
  | clearScreen | ret =>
    have hw : w = _ := (BitVec.and_allOnes (x := w)).symm.trans h
    exact ⟨_, by rw [hw]; rfl, .inl rfl⟩
  | jump | call | skipEqImm | skipNeImm | setImm | addImm | setIndex | jumpOffset | random | draw =>
    simp only [encode, opOf_encAddr, opOf_encXNN, opOf_encXYN] at hop
    simp [decode, decodeWith, hop, Instr.row]
  | skipEqReg | skipNeReg | setReg | orReg | andReg | xorReg | addReg | subReg | shiftRight | subRegRev | shiftLeft =>
    have hn := nOf_eq_of_and_mask h nOf_maskXYF
    simp only [encode, opOf_encXYN, nOf_encXYN] at hop hn
    simp [decode, decodeWith, decodeAlu, hop, hn, Instr.row]
  | skipIfKey | skipIfNotKey | readDelay | waitKey | setDelay | setSound | addIndex | setIndexFont | storeBcd | storeRegs
  | loadRegs =>
    have hnn := nnOf_eq_of_and_mask h nnOf_maskXFF
    simp only [encode, opOf_encXNN, nnOf_encXNN] at hop hnn
    simp [decode, decodeWith, decodeKey, decodeMisc, hop, hnn, Instr.row]

/-- Settles O3, each direction by its own lemma above. -/
theorem decoderFollowsTheOpcodeTable : Obligations.DecoderFollowsTheOpcodeTable :=
  ⟨fun _ _ => and_mask_of_decode, fun _ _ => decode_of_and_mask⟩

/-! ### Single families of words -/

/-- Settles O5: ten closed words, decoded. -/
theorem exampleWordsDecode : Obligations.ExampleWordsDecode := by
  unfold Obligations.ExampleWordsDecode
  decide

/-- Settles O6: the `y` nibble of the group's words reaches no branch of the two shifts. -/
theorem shiftsIgnoreTheYNibble : Obligations.ShiftsIgnoreTheYNibble := by
  intro x y
  have hword (f : Nibble) : 0x8#4 ++ x ++ y ++ f = encXYN 0x8#4 x y f := by
    rw [BitVec.append_assoc, BitVec.append_assoc]; rfl
  rw [hword, hword]
  constructor <;> simp [decode, decodeWith, decodeAlu]

/-- The policy plays no part outside the 0nnn words. -/
theorem decodeWith_eq_of_opOf_ne {w : Word} (hop : opOf w ≠ 0#4) (p q : Config.SysPolicy) :
    decodeWith p w = decodeWith q w := by
  unfold decodeWith
  split
  case h_1 h => exact absurd (BitVec.toNat_eq_nat.mp h).2 hop
  all_goals rfl

/-- Settles O7: the policies differ in one test of the 0nnn group, which is made after the two fixed words. -/
theorem zeroOnlyPolicyRejectsTheOtherNoOps : Obligations.ZeroOnlyPolicyRejectsTheOtherNoOps := by
  intro w
  by_cases hop : opOf w = 0#4
  · have hsys (p : Config.SysPolicy) : decodeWith p w = decodeSys p w := by simp [decodeWith, hop]
    rw [hsys, hsys]
    by_cases hclear : w = 0x00E0#16
    · simp [decodeSys, hclear]
    · by_cases hret : w = 0x00EE#16
      · simp [decodeSys, hret]
      · by_cases hzero : w = 0x0000#16
        · simp [decodeSys, hzero]
        · simp [decodeSys, hop, hclear, hret, hzero]
  · rw [decodeWith_eq_of_opOf_ne hop .zeroOnly .nop, if_neg fun h => hop h.1]

end Sys2Proof
end

section
/-! Proofs of the statements on what every instruction keeps (10_state.md R21, R22, R26; 20_memory.md R58). First layer:
the frames of the remaining updates, then what each instruction leaves unchanged, each said once about `exec`. -/

namespace Sys2Proof.Machine

/-! ### The frames of the remaining updates -/

theorem sameBut_setMem (s : State) (m : List Host.Cell) : SameBut [.memory] s (s.setMem m) := by
  intro p hp
  cases p with
  | memory => exact absurd (List.mem_singleton_self _) hp
  | _ => simp [Same]

theorem sameBut_setSlot (s : State) (k : Fin 16) (v : Word) : SameBut [.stack] s (s.setSlot k v) := by
  intro p hp
  cases p with
  | stack => exact absurd (List.mem_singleton_self _) hp
  | _ => simp [Same]

theorem sameBut_setKey (s : State) (k : Fin 16) (b : Bool) : SameBut [.keys] s (s.setKey k b) := by
  intro p hp
  cases p with
  | keys => exact absurd (List.mem_singleton_self _) hp
  | _ => simp [Same]

theorem sameBut_nextDraw (s : State) : SameBut [.host] s s.nextDraw := by
  intro p hp
  cases p with
  | host => exact absurd (List.mem_singleton_self _) hp
  | _ => simp [Same]

theorem sameBut_setBlock (s : State) (bs : List Byte) : SameBut [.regs] s (s.setBlock bs) := by
  intro p hp
  cases p with
  | regs => exact absurd (List.mem_singleton_self _) hp
  | _ => simp [Same]

/-- R102: what return writes. -/
theorem sameBut_setSP_setPc (s : State) (n : Fin 17) (w : Word) :
    SameBut [.pc, .stack] s ((s.setSP n).setPc w) :=
  (sameBut_setSP s n).trans (sameBut_setPc _ w) (by simp) (by simp)

/-- R104: what call writes. -/
theorem sameBut_setSlot_setSP_setPc (s : State) (k : Fin 16) (v : Word) (n : Fin 17) (w : Word) :
    SameBut [.pc, .stack] s (((s.setSlot k v).setSP n).setPc w) :=
  (sameBut_setSlot s k v).trans (sameBut_setSP_setPc _ n w) (by simp) (by simp)

theorem sameBut_writeRF (o : Config.VfDestOrder) (x : Nibble) (res : Byte) (f : Bool) (s : State) :
    SameBut [.regs] s (writeRF o x res f s) := by
  cases o with
  | flagLast | resultLast => exact (sameBut_setV s _ _).trans (sameBut_setV _ _ _) (by simp) (by simp)

theorem sameRegsBut_writeRF (o : Config.VfDestOrder) (x : Nibble) (res : Byte) (f : Bool) (s : State) :
    SameRegsBut [x, 15#4] s (writeRF o x res f s) := by
  intro r hr
  obtain ⟨hx, hvf⟩ : r ≠ x ∧ r ≠ vf := by simpa [vf] using hr
  cases o <;> simp [getV_writeRF, hx, hvf]

theorem sameBut_drawRows (o : Config.SpriteBitOrder) (x y : Nibble) (rows : List Byte) (s : State) :
    SameBut [.screen, .regs] s (drawRows o x y rows s) :=
  (sameBut_setFb s _).trans (sameBut_setV _ _ _) (by simp) (by simp)

/-! ### What an outcome ensures -/

/-- The next state of an outcome, if it has one, has a property. -/
def Ensures (r : Result) (P : State → Prop) : Prop := ∀ t, r = .next t → P t

@[simp] theorem ensures_next {t : State} {P : State → Prop} : Ensures (.next t) P ↔ P t := by
  simp [Ensures]

@[simp] theorem ensures_fault (f : Fault) (P : State → Prop) : Ensures (.fault f) P := by
  simp [Ensures]

/-! ### The parts an instruction can write (R22) -/

theorem ensures_sameBut_store (s : State) (addr : Nat) (bs : List Byte) (hn : bs ≠ []) :
    Ensures (finish (s.memWrite .fault addr bs)) (SameBut [.memory] s) := by
  rcases finish_memWrite_cases s addr bs hn with ⟨_, _, h⟩ | ⟨_, h⟩ | ⟨_, _, h⟩ <;> simp [h, sameBut_setMem]

theorem exec_sameBut (i : Instr) (s : State) : Ensures (exec i s) (SameBut (writtenParts i) s) := by
  cases i with
  | noOp => exact ensures_next.mpr (SameBut.refl _ s)
  | clearScreen => exact ensures_next.mpr (sameBut_setFb s _)
  | ret =>
    rcases exec_ret_cases s with ⟨_, h⟩ | ⟨_, h⟩
    · simp [h]
    · exact h ▸ ensures_next.mpr (sameBut_setSP_setPc s _ _)
  | call nnn =>
    rcases exec_call_cases s nnn with ⟨_, h⟩ | ⟨_, h⟩
    · simp [h]
    · exact h ▸ ensures_next.mpr (sameBut_setSlot_setSP_setPc s _ _ _ _)
  | jump | jumpOffset => exact ensures_next.mpr (sameBut_setPc s _)
  | skipEqImm | skipNeImm | skipEqReg | skipNeReg => exact ensures_next.mpr (sameBut_skipIf s _)
  | setImm | addImm | setReg | orReg | andReg | xorReg | readDelay => exact ensures_next.mpr (sameBut_setV s _ _)
  | addReg | subReg | shiftRight | subRegRev | shiftLeft => exact ensures_next.mpr (sameBut_writeRF _ _ _ _ s)
  | setIndex | addIndex | setIndexFont => exact ensures_next.mpr (sameBut_setI s _)
  | random =>
    exact ensures_next.mpr
      ((sameBut_nextDraw s).trans (sameBut_setV _ _ _) (by simp [writtenParts]) (by simp [writtenParts]))
  | draw x y n =>
    rcases exec_draw_cases s x y n with ⟨_, _, h⟩ | ⟨_, h⟩
    · simp [h]
    · exact h ▸ ensures_next.mpr (sameBut_drawRows _ x y _ s)
  | skipIfKey x => rcases exec_keySkips_cases s x with ⟨_, h, _⟩ | ⟨_, h, _⟩ <;> simp [h, writtenParts, sameBut_skipIf]
  | skipIfNotKey x => rcases exec_keySkips_cases s x with ⟨_, _, h⟩ | ⟨_, _, h⟩ <;> simp [h, writtenParts, sameBut_skipIf]
  | waitKey x =>
    rcases exec_waitKey_cases s x with ⟨_, h⟩ | ⟨_, _, h⟩
    · exact h ▸ ensures_next.mpr fun p hp => sameBut_setPc s _ p (by simp_all [writtenParts])
    · exact h ▸ ensures_next.mpr fun p hp => sameBut_setV s x _ p (by simp_all [writtenParts])
  | setDelay => exact ensures_next.mpr (sameBut_setDT s _)
  | setSound => exact ensures_next.mpr (sameBut_setST s _)
  | storeBcd x => exact ensures_sameBut_store s _ _ (bcd3_ne_nil _)
  | storeRegs x => exact ensures_sameBut_store s _ _ (regBlock_ne_nil s x)
  | loadRegs x =>
    rcases exec_loadRegs_cases s x with ⟨_, h⟩ | ⟨_, h⟩
    · simp [h]
    · exact h ▸ ensures_next.mpr (sameBut_setBlock s _)

/-- A part that the table does not give an instruction reads the same after it. -/
theorem same_of_exec {i : Instr} {s t : State} (h : exec i s = .next t) {p : Part} (hp : p ∉ writtenParts i) :
    Same p s t :=
  exec_sameBut i s t h p hp

/-! ### The registers an instruction can write (R21, R22) -/

theorem getV_of_exec {i : Instr} {s t : State} (h : exec i s = .next t) {r : Nibble} (hr : ¬ writesReg r i) :
    t.getV r = s.getV r := by
  revert t
  change Ensures (exec i s) fun t => t.getV r = s.getV r
  cases i with
  | setImm | addImm | setReg | orReg | andReg | xorReg | readDelay =>
    exact ensures_next.mpr (s.getV_setV_ne _ r _ hr)
  | random => exact ensures_next.mpr (s.nextDraw.getV_setV_ne _ r _ hr)
  | addReg | subReg | shiftRight | subRegRev | shiftLeft =>
    exact ensures_next.mpr (sameRegsBut_writeRF _ _ _ _ s r (by simpa [writesReg] using hr))
  | draw x y n =>
    have hvf : r ≠ vf := hr
    rcases exec_draw_cases s x y n with ⟨_, _, h⟩ | ⟨_, h⟩ <;> simp [h, getV_drawRows, hvf]
  | waitKey x =>
    rcases exec_waitKey_cases s x with ⟨_, h⟩ | ⟨_, _, h⟩
    · simp [h]
    · exact h ▸ ensures_next.mpr (s.getV_setV_ne x r _ hr)
  | loadRegs x =>
    have hout : blockLen x ≤ r.toNat := Nat.lt_of_not_le hr
    rcases exec_loadRegs_cases s x with ⟨_, h⟩ | ⟨_, h⟩ <;> simp [h, State.getV_setBlock, hout]
  | _ => exact fun t h => same_of_exec h (p := .regs) (by simp [writtenParts]) r

/-! ### Reading after a block was written (R54) -/

theorem readByte_writeBytes_inside (s : State) (addr : Nat) {bs : List Byte} {k : Nat} {v : Byte} (h : bs[k]? = some v) :
    (s.setMem (Memory.writeBytes s.mem addr bs)).readByte (addr + k) = v := by
  rw [State.readByte_writeBytes, if_pos (Nat.le_add_right _ _), Nat.add_sub_cancel_left, h, Option.getD_some]

theorem readByte_writeBytes_outside (s : State) {addr : Nat} {bs : List Byte} {a : Nat}
    (h : a < addr ∨ addr + bs.length ≤ a) : (s.setMem (Memory.writeBytes s.mem addr bs)).readByte a = s.readByte a := by
  rw [State.readByte_writeBytes]
  split
  case isTrue hle => rw [List.getElem?_eq_none (by omega), Option.getD_none]
  case isFalse => rfl

/-! ### The bytes an instruction can write -/

/-- The two instructions that write memory, by the number of bytes they write at I (R145, R146). -/
def Stores (i : Instr) (n : Nat) : Prop :=
  (∃ x, i = .storeBcd x ∧ n = 3) ∨ (∃ x, i = .storeRegs x ∧ n = x.toNat + 1)

/-- An instruction that answers a next state keeps the memory, or is a store inside it and above the font. -/
def MemoryStep (i : Instr) (s t : State) : Prop :=
  t.mem = s.mem ∨ ∃ bs, Stores i bs.length ∧ 80 ≤ baseAddr s ∧ baseAddr s + bs.length ≤ 4096 ∧
    t.mem = Memory.writeBytes s.mem (baseAddr s) bs

theorem ensures_memoryStep_store {i : Instr} (s : State) {bs : List Byte} (hn : bs ≠ []) (hi : Stores i bs.length) :
    Ensures (finish (s.memWrite .fault (baseAddr s) bs)) (MemoryStep i s) := by
  rcases finish_memWrite_cases s (baseAddr s) bs hn with ⟨hfont, hin, h⟩ | ⟨_, h⟩ | ⟨_, _, h⟩
  · exact h ▸ ensures_next.mpr (.inr ⟨bs, hi, hfont, hin, rfl⟩)
  · simp [h]
  · simp [h]

theorem exec_memoryStep (i : Instr) (s : State) : Ensures (exec i s) (MemoryStep i s) := by
  cases i with
  | storeBcd x => exact ensures_memoryStep_store s (bcd3_ne_nil _) (.inl ⟨x, rfl, rfl⟩)
  | storeRegs x => exact ensures_memoryStep_store s (regBlock_ne_nil s x) (.inr ⟨x, rfl, regBlock_length s x⟩)
  | ret => rcases exec_ret_cases s with ⟨_, h⟩ | ⟨_, h⟩ <;> simp [h, MemoryStep]
  | call nnn => rcases exec_call_cases s nnn with ⟨_, h⟩ | ⟨_, h⟩ <;> simp [h, MemoryStep]
  | draw x y n => rcases exec_draw_cases s x y n with ⟨_, _, h⟩ | ⟨_, h⟩ <;> simp [h, MemoryStep]
  | loadRegs x => rcases exec_loadRegs_cases s x with ⟨_, h⟩ | ⟨_, h⟩ <;> simp [h, MemoryStep]
  | skipIfKey x => rcases exec_keySkips_cases s x with ⟨_, h, _⟩ | ⟨_, h, _⟩ <;> simp [h, MemoryStep]
  | skipIfNotKey x => rcases exec_keySkips_cases s x with ⟨_, _, h⟩ | ⟨_, _, h⟩ <;> simp [h, MemoryStep]
  | waitKey x => rcases exec_waitKey_cases s x with ⟨_, h⟩ | ⟨_, _, h⟩ <;> simp [h, MemoryStep]
  | skipEqImm | skipNeImm | skipEqReg | skipNeReg => exact ensures_next.mpr (.inl (State.skipIf_mem s _))
  | _ => exact ensures_next.mpr (.inl rfl)

/-- A byte below I, in the font, or beyond the stored bytes reads the same after an instruction. -/
theorem readByte_of_memoryStep {i : Instr} {s t : State} (h : MemoryStep i s t) {a : Nat}
    (ha : ∀ n, Stores i n → a < baseAddr s ∨ baseAddr s + n ≤ a ∨ a < 80) : t.readByte a = s.readByte a := by
  rcases h with hmem | ⟨bs, hi, hfont, _, hmem⟩
  · simp only [State.readByte, hmem]
  · have hbyte : t.readByte a = (s.setMem (Memory.writeBytes s.mem (baseAddr s) bs)).readByte a :=
      congrArg (Memory.read · a) hmem
    have hout := ha bs.length hi
    exact hbyte.trans (readByte_writeBytes_outside s (by omega))

/-! ### The model's own fields -/

/-- No instruction touches the script, and only random counts a draw (log 9). -/
theorem host_of_exec {i : Instr} {s t : State} (h : exec i s = .next t) :
    t.script = s.script ∧ (t.draws = s.draws ∨ ∃ x nn, i = .random x nn) := by
  cases i with
  | random x nn =>
    obtain rfl := Host.Outcome.next.inj h
    exact ⟨rfl, .inr ⟨x, nn, rfl⟩⟩
  | _ =>
    obtain ⟨hscript, hdraws⟩ := same_of_exec h (p := .host) (by simp [writtenParts])
    exact ⟨hscript, .inl hdraws⟩

/-! ### The obligations -/

/-- Settles O54: a store that answers a next state starts above the font. -/
theorem noInstructionChangesTheFont : Obligations.NoInstructionChangesTheFont :=
  fun i s t h _ ha => readByte_of_memoryStep (exec_memoryStep i s t h) fun _ _ => .inr (.inr ha)

/-- Settles O50: the frames above, and for wait-key its two cases. -/
theorem instructionsChangeOnlyTheirParts : Obligations.InstructionsChangeOnlyTheirParts := by
  intro i s t h
  refine ⟨exec_sameBut i s t h, fun r hr => getV_of_exec h hr, fun a ha => ?memory, ?waitKey, ?script, ?draws⟩
  case memory =>
    by_contra hno
    refine ha (readByte_of_memoryStep (exec_memoryStep i s t h) ?_)
    rintro n (⟨x, rfl, rfl⟩ | ⟨x, rfl, rfl⟩)
    · by_contra hin
      exact hno (.inl ⟨x, rfl, by omega, by omega⟩)
    · by_contra hin
      exact hno (.inr ⟨x, rfl, by omega, by omega⟩)
  case waitKey =>
    rintro x rfl
    rcases exec_waitKey_cases s x with ⟨_, hexec⟩ | ⟨_, _, hexec⟩
    · obtain rfl := Host.Outcome.next.inj (h.symm.trans hexec)
      exact .inl fun _ => rfl
    · obtain rfl := Host.Outcome.next.inj (h.symm.trans hexec)
      exact .inr rfl
  case script => exact (host_of_exec h).1
  case draws => exact (host_of_exec h).2

/-- Settles O52: an instruction that changes VF is given it by the table of written registers. -/
theorem vfChangesOnlyWhereNamed : Obligations.VFChangesOnlyWhereNamed := by
  refine ⟨by decide, fun i s t h hne => ?_⟩
  have hwrites : writesReg 15#4 i := by
    by_contra hr
    exact hne (getV_of_exec h hr)
  cases i with
  | addReg | subReg | subRegRev | shiftRight | shiftLeft | draw => simp
  | loadRegs x =>
    have hle : (15#4).toNat ≤ x.toNat := hwrites
    obtain rfl : x = 15#4 := by bv_omega
    simp
  | _ => simp_all [writesReg]

end Sys2Proof.Machine
end

section
/-! Proofs of the statements on the invariant. First layer: the range of `pc` and of the stack slots after an
instruction, and that the invariant reads three fields of the state. -/

namespace Sys2Proof.Machine

/-! ### Targets (10_state.md R26) -/

/-- D12: the sum of jump-offset never reaches 16 bits. -/
@[simp] theorem toNat_offsetTarget (s : State) (nnn : Addr12) :
    (offsetTarget s nnn).toNat = (s.getV 0#4).toNat + nnn.toNat := by
  have hv := (s.getV 0#4).isLt
  have hn := nnn.isLt
  have hv' := toNat_zext16 (s.getV 0#4) (by decide)
  have hn' := toNat_zext16 nnn (by decide)
  rw [offsetTarget, BitVec.toNat_add_of_lt (by omega), hv', hn']

/-- Where a fetch succeeded, `pc0 + 2` does not wrap. -/
theorem toNat_advance_pc {s : State} (h : s.pc.toNat + 1 < 4096) : s.advance.pc.toNat = s.pc.toNat + 2 := by
  rw [State.advance_pc]
  bv_omega

theorem toNat_skipIf_pc_le (s : State) (c : Bool) : (s.skipIf c).pc.toNat ≤ s.pc.toNat + 2 := by
  cases c with
  | false => exact Nat.le_add_right _ _
  | true => exact (BitVec.toNat_add s.pc 2#16).trans_le (Nat.mod_le _ _)

/-- R26: with `pc` where a fetch leaves it, no instruction takes it above 0x10FE. -/
theorem exec_pcRange (i : Instr) {s : State} (hlow : 2 ≤ s.pc.toNat) (hhigh : s.pc.toNat ≤ 0x1000)
    (hstack : ∀ k : Fin 16, s.stack[k].toNat ≤ 0x1000) : Ensures (exec i s) fun t => t.pc.toNat ≤ 0x10FE := by
  have hskip (c : Bool) : (s.skipIf c).pc.toNat ≤ 0x10FE := (toNat_skipIf_pc_le s c).trans (by omega)
  cases i with
  | jump nnn =>
    have hn := nnn.isLt
    exact ensures_next.mpr (by simp; omega)
  | jumpOffset nnn =>
    have hn := nnn.isLt
    have hv := (s.getV 0#4).isLt
    exact ensures_next.mpr (by simp; omega)
  | call nnn =>
    have hn := nnn.isLt
    rcases exec_call_cases s nnn with ⟨_, h⟩ | ⟨_, h⟩
    · simp [h]
    · simp [h]; omega
  | ret =>
    rcases exec_ret_cases s with ⟨_, h⟩ | ⟨hpos, h⟩
    · simp [h]
    · exact h ▸ ensures_next.mpr ((hstack ⟨s.sp.val - 1, by omega⟩).trans (by decide))
  | skipEqImm | skipNeImm | skipEqReg | skipNeReg => exact ensures_next.mpr (hskip _)
  | skipIfKey x =>
    rcases exec_keySkips_cases s x with ⟨_, h, _⟩ | ⟨_, h, _⟩
    · simp [h]
    · exact h ▸ ensures_next.mpr (hskip _)
  | skipIfNotKey x =>
    rcases exec_keySkips_cases s x with ⟨_, _, h⟩ | ⟨_, _, h⟩
    · simp [h]
    · exact h ▸ ensures_next.mpr (hskip _)
  | waitKey x =>
    rcases exec_waitKey_cases s x with ⟨_, h⟩ | ⟨_, _, h⟩
    · have hpc0 : s.pc0.toNat = s.pc.toNat - 2 := BitVec.toNat_sub_of_le hlow
      simp [h]; omega
    · simp [h]; omega
  | _ =>
    intro t h
    have hpc : t.pc = s.pc := same_of_exec h (p := .pc) (by simp [writtenParts])
    exact hpc ▸ hhigh.trans (by decide)

/-- Every stack slot holds an address a call can push: only call writes one, the `pc` its fetch left. -/
theorem exec_stackRange (i : Instr) {s : State} (hpc : s.pc.toNat ≤ 0x1000)
    (hstack : ∀ k : Fin 16, s.stack[k].toNat ≤ 0x1000) :
    Ensures (exec i s) fun t => ∀ k : Fin 16, t.stack[k].toNat ≤ 0x1000 := by
  cases i with
  | call nnn =>
    rcases exec_call_cases s nnn with ⟨_, h⟩ | ⟨_, h⟩
    · simp [h]
    · refine h ▸ ensures_next.mpr fun k => ?_
      change ((s.setSlot _ s.pc).stack[k]).toNat ≤ 0x1000
      rw [State.stack_setSlot]
      split
      case isTrue => exact hpc
      case isFalse => exact hstack k
  | ret =>
    rcases exec_ret_cases s with ⟨_, h⟩ | ⟨_, h⟩
    · simp [h]
    · exact h ▸ ensures_next.mpr hstack
  | _ => exact fun t h k => ((same_of_exec h (p := .stack) (by simp [writtenParts])).2 k).symm ▸ hstack k

/-! ### The invariant, by instruction, by cycle and by command -/

/-- The invariant reads memory, `pc` and the stack slots. -/
theorem Inv.of_eq {s t : State} (h : Inv s) (hmem : t.mem = s.mem) (hpc : t.pc = s.pc) (hstack : t.stack = s.stack) :
    Inv t := by
  obtain ⟨hwf, hfont, hrange, hslots⟩ := h
  exact ⟨hmem ▸ hwf, by simpa only [FontIntact, State.readByte, hmem] using hfont, hpc ▸ hrange, hstack ▸ hslots⟩

theorem inv_reset : Inv State.reset :=
  ⟨Memory.wf_nil, fun _ _ => rfl, by decide, by decide⟩

theorem memWf_of_memoryStep {i : Instr} {s t : State} (h : MemoryStep i s t) (hwf : Memory.wf s.mem) :
    Memory.wf t.mem := by
  rcases h with hmem | ⟨bs, _, _, hin, hmem⟩
  · exact hmem ▸ hwf
  · exact hmem ▸ Memory.wf_writeBytes bs _ hwf hin

theorem inv_of_cycle {s t : State} (hinv : Inv s) (h : cycle s = .next t) : Inv t := by
  obtain ⟨hwf, hfont, -, hslots⟩ := hinv
  rcases cycle_cases s with ⟨_, hc⟩ | ⟨_, _, _, _, hc⟩ | ⟨w, i, ⟨hfetch, -⟩, _, hc⟩
  · exact nomatch hc.symm.trans h
  · exact nomatch hc.symm.trans h
  · have hexec := hc.symm.trans h
    have hpc := toNat_advance_pc hfetch
    have hin : s.pc.toNat + 1 < 4096 := hfetch
    have hlow : 2 ≤ s.advance.pc.toNat := by omega
    have hhigh : s.advance.pc.toNat ≤ 0x1000 := by omega
    exact ⟨memWf_of_memoryStep (exec_memoryStep i _ t hexec) hwf,
      fun a ha => (noInstructionChangesTheFont i _ t hexec a ha).trans (hfont a ha),
      exec_pcRange i hlow hhigh hslots t hexec, exec_stackRange i hhigh hslots t hexec⟩

/-- A load writes from 0x200 on, above the font. -/
theorem inv_setMem_load {s : State} (hinv : Inv s) {bytes : List Byte} (hlen : bytes.length ≤ 3584) :
    Inv (s.setMem (Memory.writeBytes s.mem 0x200 bytes)) := by
  obtain ⟨hwf, hfont, hrange, hslots⟩ := hinv
  refine ⟨Memory.wf_writeBytes bytes _ hwf (by simp; omega), fun a ha => ?_, hrange, hslots⟩
  have hbelow : ¬ 0x200 ≤ a := Nat.not_le.mpr (ha.trans (by decide))
  rw [State.readByte_writeBytes, if_neg hbelow]
  exact hfont a ha

theorem inv_keyCommand {s : State} (hinv : Inv s) (k : Nat) (b : Bool) : Inv (orUnchanged s (keyCommand k b s)) := by
  rcases Nat.lt_or_ge 15 k with h | h
  · simpa [keyCommand_refused s k b h] using hinv
  · rw [show k = (⟨k, by omega⟩ : Fin 16).val from rfl, keyCommand_ok]
    exact hinv.of_eq rfl rfl rfl

theorem inv_of_runCommand {c : HostCommand} {s t : State} (hinv : Inv s) (h : runCommand c s = .next t) : Inv t := by
  cases c with
  | cycle => exact inv_of_cycle hinv h
  | init | reset =>
    obtain rfl := Host.Outcome.next.inj h
    exact inv_reset.of_eq rfl rfl rfl
  | load bytes =>
    obtain rfl := Host.Outcome.next.inj h
    rcases Nat.lt_or_ge 3584 bytes.length with hlen | hlen
    · simpa [loadImage_refused s bytes hlen] using hinv
    · simpa [loadImage_ok s bytes hlen] using inv_setMem_load hinv hlen
  | tickTimers | display =>
    obtain rfl := Host.Outcome.next.inj h
    exact hinv.of_eq rfl rfl rfl
  | keyDown k | keyUp k =>
    obtain rfl := Host.Outcome.next.inj h
    exact inv_keyCommand hinv k _

/-! ### The obligations -/

/-- Settles O49. -/
theorem resetMeetsTheInvariant : Obligations.ResetMeetsTheInvariant := inv_reset

/-- Settles O48: issuing a command leaves the core as it was, and every command keeps the invariant. -/
theorem everyStepKeepsTheInvariant : Obligations.EveryStepKeepsTheInvariant :=
  fun _ _ hinv h => inv_of_runCommand (hinv.of_eq rfl rfl rfl : Inv (afterIssue _)) h

end Sys2Proof.Machine
end

section
/-! Proofs of the statements on faults, on the sources no instruction reads, and on the finished core (60_exceptions.md).
First layer: the faults of every instruction and of a cycle, what is hidden from every instruction but one, and the
instructions that can leave the state as it was before the fetch. -/

namespace Sys2Proof.Machine

/-! ### Faults (R201 to R207) -/

/-- Settles O53, from the cases of each instruction that can fault; any other answers a next state. -/
theorem instructionsFaultOnlyAsListed : Obligations.InstructionsFaultOnlyAsListed := by
  intro i s
  cases i with
  | call nnn =>
    rcases exec_call_cases s nnn with ⟨hsp, h⟩ | ⟨_, h⟩
    · exact .inr (.inl ⟨nnn, rfl, hsp, h⟩)
    · exact .inl ⟨_, h⟩
  | ret =>
    rcases exec_ret_cases s with ⟨hsp, h⟩ | ⟨_, h⟩
    · exact .inr (.inr (.inl ⟨rfl, hsp, h⟩))
    · exact .inl ⟨_, h⟩
  | skipIfKey x =>
    rcases exec_keySkips_cases s x with ⟨hkey, h, _⟩ | ⟨_, h, _⟩
    · exact .inr (.inr (.inr (.inl ⟨x, .inl rfl, hkey, h⟩)))
    · exact .inl ⟨_, h⟩
  | skipIfNotKey x =>
    rcases exec_keySkips_cases s x with ⟨hkey, _, h⟩ | ⟨_, _, h⟩
    · exact .inr (.inr (.inr (.inl ⟨x, .inr rfl, hkey, h⟩)))
    · exact .inl ⟨_, h⟩
  | waitKey x => rcases exec_waitKey_cases s x with ⟨_, h⟩ | ⟨_, _, h⟩ <;> exact .inl ⟨_, h⟩
  | draw x y n =>
    rcases exec_draw_cases s x y n with ⟨hout, hn, h⟩ | ⟨_, h⟩
    · exact .inr (.inr (.inr (.inr (.inl
        ⟨n.toNat, .inl ⟨x, y, n, rfl, rfl⟩, Nat.pos_of_ne_zero hn, hout, h⟩))))
    · exact .inl ⟨_, h⟩
  | storeBcd x =>
    rcases finish_memWrite_cases s (baseAddr s) _ (bcd3_ne_nil (s.getV x)) with ⟨_, _, h⟩ | ⟨hout, h⟩ | ⟨hfont, _, h⟩
    · exact .inl ⟨_, h⟩
    · exact .inr (.inr (.inr (.inr (.inl ⟨3, .inr (.inl ⟨x, rfl, rfl⟩), by decide, hout, h⟩))))
    · exact .inr (.inr (.inr (.inr (.inr ⟨x, .inl rfl, hfont, h⟩))))
  | storeRegs x =>
    rcases finish_memWrite_cases s (baseAddr s) _ (regBlock_ne_nil s x) with ⟨_, _, h⟩ | ⟨hout, h⟩ | ⟨hfont, _, h⟩
    · exact .inl ⟨_, h⟩
    · rw [regBlock_length] at hout
      exact .inr (.inr (.inr (.inr (.inl
        ⟨x.toNat + 1, .inr (.inr ⟨x, .inl rfl, rfl⟩), Nat.succ_pos _, hout, h⟩))))
    · exact .inr (.inr (.inr (.inr (.inr ⟨x, .inr rfl, hfont, h⟩))))
  | loadRegs x =>
    rcases exec_loadRegs_cases s x with ⟨hout, h⟩ | ⟨_, h⟩
    · exact .inr (.inr (.inr (.inr (.inl
        ⟨x.toNat + 1, .inr (.inr ⟨x, .inr rfl, rfl⟩), Nat.succ_pos _, hout, h⟩))))
    · exact .inl ⟨_, h⟩
  | _ => exact .inl ⟨_, rfl⟩

/-! ### What is hidden from every instruction but one (R30, R224) -/

/-- A state with other values of ST, of the draw count, or of both. -/
def State.setHidden (v : Option Byte) (d : Option Nat) (s : State) : State :=
  { s with st := v.getD s.st, draws := d.getD s.draws }

section Hidden

variable (v : Option Byte) (d : Option Nat) (s : State)

theorem skipIf_setHidden (c : Bool) : (s.setHidden v d).skipIf c = (s.skipIf c).setHidden v d := by
  cases c <;> rfl

theorem pop_setHidden :
    (s.setHidden v d).pop = s.pop.map fun p => (p.1, p.2.setHidden v d) := by
  rcases Nat.eq_zero_or_pos s.sp.val with h | h
  · rw [s.pop_of_empty h, State.pop_of_empty (s.setHidden v d) h, Option.map_none]
  · rw [s.pop_of_pos h, State.pop_of_pos (s.setHidden v d) h]
    rfl

theorem push_setHidden (w : Word) : (s.setHidden v d).push w = (s.push w).map (State.setHidden v d) := by
  rcases Nat.lt_or_ge s.sp.val 16 with h | h
  · rw [s.push_of_lt w h, State.push_of_lt (s.setHidden v d) w h]
    rfl
  · have hfull : s.sp.val = 16 := by omega
    rw [s.push_of_full w hfull, State.push_of_full (s.setHidden v d) w hfull, Option.map_none]

theorem baseAddr_setHidden : baseAddr (s.setHidden v d) = baseAddr s := rfl

theorem memRead_setHidden (addr n : Nat) : (s.setHidden v d).memRead addr n = s.memRead addr n := rfl

theorem keyOperand_setHidden (x : Nibble) : keyOperand (s.setHidden v d) x = keyOperand s x := rfl

theorem lowestKey_setHidden : (s.setHidden v d).lowestKey = s.lowestKey := rfl

theorem finish_memWrite_setHidden (addr : Nat) (bs : List Byte) :
    finish ((s.setHidden v d).memWrite .fault addr bs) =
      mapNext (State.setHidden v d) (finish (s.memWrite .fault addr bs)) := by
  unfold State.memWrite
  cases Memory.firstOutside addr bs.length with
  | some a => rfl
  | none => cases Memory.firstInFont addr bs.length <;> rfl

/-- set-sound alone has to do with ST and random alone with the draw count: any other instruction does the same
whatever they are, and carries them along. -/
theorem exec_setHidden (i : Instr) (hv : v = none ∨ ∀ x, i ≠ .setSound x) (hd : d = none ∨ ∀ x nn, i ≠ .random x nn) :
    exec i (s.setHidden v d) = mapNext (State.setHidden v d) (exec i s) := by
  cases i with
  | setSound x =>
    obtain rfl : v = none := hv.resolve_right fun h => h x rfl
    rfl
  | random x nn =>
    obtain rfl : d = none := hd.resolve_right fun h => h x nn rfl
    rfl
  | skipEqImm | skipNeImm | skipEqReg | skipNeReg => exact congrArg Host.Outcome.next (skipIf_setHidden v d s _)
  | storeBcd | storeRegs => exact finish_memWrite_setHidden v d s _ _
  | ret =>
    simp only [exec, execRet, pop_setHidden]
    cases s.pop <;> rfl
  | call nnn =>
    simp only [exec, execCall, show (s.setHidden v d).pc = s.pc from rfl, push_setHidden]
    cases s.push s.pc <;> rfl
  | draw x y n =>
    simp only [exec, execDraw, baseAddr_setHidden, memRead_setHidden]
    cases s.memRead (baseAddr s) n.toNat <;> rfl
  | loadRegs x =>
    simp only [exec, execLoadRegs, baseAddr_setHidden, memRead_setHidden]
    cases s.memRead (baseAddr s) (blockLen x) <;> rfl
  | skipIfKey x =>
    simp only [exec, execSkipIfKey, keyOperand_setHidden]
    cases keyOperand s x with
    | error => rfl
    | ok k => exact congrArg Host.Outcome.next (skipIf_setHidden v d s _)
  | skipIfNotKey x =>
    simp only [exec, execSkipIfNotKey, keyOperand_setHidden]
    cases keyOperand s x with
    | error => rfl
    | ok k => exact congrArg Host.Outcome.next (skipIf_setHidden v d s _)
  | waitKey x =>
    simp only [exec, execWaitKey, lowestKey_setHidden]
    cases s.lowestKey <;> rfl
  | _ => rfl

end Hidden

/-- Settles O55: the draw count is hidden from every instruction but random. -/
theorem onlyRandomReadsTheRandomSource : Obligations.OnlyRandomReadsTheRandomSource :=
  fun i s d hi => exec_setHidden none (some d) s i (.inl rfl) (.inr hi)

/-- Settles O56: ST is hidden from every instruction but set-sound, which writes it without reading it. -/
theorem noInstructionReadsTheSoundTimer : Obligations.NoInstructionReadsTheSoundTimer := by
  intro i s v
  by_cases hi : ∃ x, i = .setSound x
  · obtain ⟨x, rfl⟩ := hi
    exact ⟨s.getV x, rfl⟩
  · exact ⟨v, exec_setHidden (some v) none s i (.inr (not_exists.mp hi)) (.inl rfl)⟩

end Sys2Proof.Machine
end

section
/-! Proofs of the statements on a cycle as the host sees it (60_exceptions.md R201, R220, R227). First layer: the fetch and
the stall of a cycle by the word it fetches, the faults of a cycle, and the cycles that change nothing. -/

namespace Sys2Proof.Machine

/-! ### The fetch and the stall (R81, R84) -/

theorem fetchWord_of_fetches {s : State} {w : Word} (h : Fetches s w) : fetchWord s = .ok w := by
  obtain ⟨hin, rfl⟩ := h
  exact fetchWord_ok s hin

theorem cycle_of_fetches {s : State} {w : Word} {i : Instr} (hf : Fetches s w) (hd : decode w = .ok i) :
    cycle s = exec i s.advance :=
  cycle_of_decode_ok (fetchWord_of_fetches hf) hd

theorem stalls_of_waitKey {s : State} {w : Word} {x : Nibble} (hf : Fetches s w) (hd : decode w = .ok (.waitKey x)) :
    stalls s = s.lowestKey.isNone := by
  simp [stalls, fetchWord_of_fetches hf, hd]

theorem stalls_of_not_waitKey {s : State} {w : Word} {i : Instr} (hf : Fetches s w) (hd : decode w = .ok i)
    (hi : ∀ x, i ≠ .waitKey x) : stalls s = false := by
  cases i with
  | waitKey x => exact absurd rfl (hi x)
  | _ => simp [stalls, fetchWord_of_fetches hf, hd]

/-! ### The cycles that change nothing (R227) -/

theorem advance_pc_ne (s : State) : s.advance.pc ≠ s.pc := by
  rw [State.advance_pc]
  bv_omega

theorem skipIf_advance_ne (s : State) (c : Bool) : s.advance.skipIf c ≠ s := by
  refine fun h => absurd (congrArg State.pc h) ?_
  cases c with
  | false => exact advance_pc_ne s
  | true =>
    change s.pc + 2#16 + 2#16 ≠ s.pc
    bv_omega

/-- An instruction that undoes its own fetch advance is a jump to itself, or a wait-key that stalls. -/
theorem exec_advance_eq_next_self {i : Instr} {s : State} (h : exec i s.advance = .next s) :
    (∃ nnn, i = .jump nnn ∧ nnn.toNat = s.pc.toNat) ∨
    (∃ nnn, i = .jumpOffset nnn ∧ (s.getV 0#4).toNat + nnn.toNat = s.pc.toNat) ∨
    (∃ x, i = .waitKey x ∧ s.lowestKey = none) := by
  cases i with
  | jump nnn =>
    have hpc := congrArg State.pc (Host.Outcome.next.inj h)
    exact .inl ⟨nnn, rfl, by simp [← hpc]⟩
  | jumpOffset nnn =>
    have hpc := congrArg State.pc (Host.Outcome.next.inj h)
    exact .inr (.inl ⟨nnn, rfl, by simp [← hpc]⟩)
  | waitKey x =>
    rcases exec_waitKey_cases s.advance x with ⟨hnone, _⟩ | ⟨_, _, he⟩
    · exact .inr (.inr ⟨x, rfl, hnone⟩)
    · exact absurd (congrArg State.pc (Host.Outcome.next.inj (he.symm.trans h))) (advance_pc_ne s)
  | ret =>
    rcases exec_ret_cases s.advance with ⟨_, he⟩ | ⟨hpos, he⟩
    · exact nomatch he.symm.trans h
    · have hsp : s.sp.val - 1 = s.sp.val := congrArg (fun t => t.sp.val) (Host.Outcome.next.inj (he.symm.trans h))
      have hpos' : 0 < s.sp.val := hpos
      omega
  | call nnn =>
    rcases exec_call_cases s.advance nnn with ⟨_, he⟩ | ⟨_, he⟩
    · exact nomatch he.symm.trans h
    · have hsp : s.sp.val + 1 = s.sp.val := congrArg (fun t => t.sp.val) (Host.Outcome.next.inj (he.symm.trans h))
      omega
  | skipEqImm | skipNeImm | skipEqReg | skipNeReg =>
    exact absurd (Host.Outcome.next.inj h) (skipIf_advance_ne s _)
  | skipIfKey x =>
    rcases exec_keySkips_cases s.advance x with ⟨_, he, _⟩ | ⟨_, he, _⟩
    · exact nomatch he.symm.trans h
    · exact absurd (Host.Outcome.next.inj (he.symm.trans h)) (skipIf_advance_ne s _)
  | skipIfNotKey x =>
    rcases exec_keySkips_cases s.advance x with ⟨_, _, he⟩ | ⟨_, _, he⟩
    · exact nomatch he.symm.trans h
    · exact absurd (Host.Outcome.next.inj (he.symm.trans h)) (skipIf_advance_ne s _)
  | _ => exact absurd (same_of_exec h (p := .pc) (by simp [writtenParts])).symm (advance_pc_ne s)

/-- A jump to where the cycle fetched undoes the fetch advance. -/
theorem setPc_advance_eq_self {s : State} {target : Word} (h : target.toNat = s.pc.toNat) :
    s.advance.setPc target = s := by
  rw [BitVec.eq_of_toNat_eq h]
  rfl

theorem finished_of_exec {s : State} {w : Word} {i : Instr} (hf : Fetches s w) (hd : decode w = .ok i)
    (hi : ∀ x, i ≠ .waitKey x) (h : exec i s.advance = .next s) : Finished s :=
  ⟨(cycle_of_fetches hf hd).trans h, stalls_of_not_waitKey hf hd hi⟩

/-- Settles O57: of the instructions that undo their fetch advance, a stalled wait-key returns Stalled and not Ok. -/
theorem finishedExactlyAtASelfJump : Obligations.FinishedExactlyAtASelfJump := by
  intro s
  constructor
  · rintro ⟨hcycle, hstalls⟩
    rcases cycle_cases s with ⟨_, hc⟩ | ⟨_, _, _, _, hc⟩ | ⟨w, i, hf, hd, hc⟩
    · exact nomatch hc.symm.trans hcycle
    · exact nomatch hc.symm.trans hcycle
    · rcases exec_advance_eq_next_self (hc.symm.trans hcycle) with ⟨nnn, rfl, hpc⟩ | ⟨nnn, rfl, hpc⟩ | ⟨x, rfl, hnone⟩
      · exact ⟨w, hf, .inl ⟨nnn, hd, hpc⟩⟩
      · exact ⟨w, hf, .inr ⟨nnn, hd, hpc⟩⟩
      · simp [stalls_of_waitKey hf hd, hnone] at hstalls
  · rintro ⟨w, hf, ⟨nnn, hd, hpc⟩ | ⟨nnn, hd, hpc⟩⟩
    · exact finished_of_exec hf hd (by simp)
        (congrArg Host.Outcome.next (setPc_advance_eq_self ((toNat_absTarget nnn).trans hpc)))
    · exact finished_of_exec hf hd (by simp)
        (congrArg Host.Outcome.next (setPc_advance_eq_self ((toNat_offsetTarget _ nnn).trans hpc)))

/-! ### The record of a fault (R201) -/

/-- The faults of a cycle: of its fetch, of its decode, or of the instruction, whose address is that of the cycle. -/
theorem fault_of_cycle {s : State} {f : Fault} (h : cycle s = .fault f) :
    (4095 ≤ s.pc.toNat ∧ f = .memoryRange (max s.pc.toNat 4096)) ∨
    (∃ w, Fetches s w ∧
      (f = .decodeFault w s.pc ∨ f = .stackOverflow s.pc ∨ f = .stackUnderflow s.pc ∨
        (∃ a, f = .memoryRange a ∧ 4096 ≤ a) ∨ (∃ a, f = .fontWrite a ∧ a < 80) ∨
        (∃ k, f = .keyIndex k ∧ 15 < k.toNat))) := by
  have hpc0 : s.advance.pc - 2#16 = s.pc := BitVec.add_sub_cancel _ _
  rcases cycle_cases s with ⟨hout, hc⟩ | ⟨w, e, hf, _, hc⟩ | ⟨w, i, hf, _, hc⟩
  · exact .inl ⟨hout, (Host.Outcome.fault.inj (hc.symm.trans h)).symm⟩
  · exact .inr ⟨w, hf, .inl (Host.Outcome.fault.inj (hc.symm.trans h)).symm⟩
  · have hexec := hc.symm.trans h
    refine .inr ⟨w, hf, .inr ?_⟩
    rcases instructionsFaultOnlyAsListed i s.advance with ⟨t, he⟩ | ⟨_, _, _, he⟩ | ⟨_, _, he⟩ | ⟨x, _, hkey, he⟩ |
      ⟨n, _, _, _, he⟩ | ⟨x, _, hfont, he⟩
    all_goals have hfault := hexec.symm.trans he
    · exact nomatch hfault
    all_goals obtain rfl := Host.Outcome.fault.inj hfault
    · exact .inl (congrArg Fault.stackOverflow hpc0)
    · exact .inr (.inl (congrArg Fault.stackUnderflow hpc0))
    · exact .inr (.inr (.inr (.inr ⟨_, rfl, hkey⟩)))
    · exact .inr (.inr (.inl ⟨_, rfl, Nat.le_max_right _ _⟩))
    · exact .inr (.inr (.inr (.inl ⟨_, rfl, hfont⟩)))

theorem cycleReply_of_fault {s : State} {f : Fault} (h : cycle s = .fault f) :
    cycleReply s = .fault (cycleRecord s f) := by
  simp [cycleReply, h]

/-- R201: the record names a word exactly when the fetch succeeded, and then the fetched one. -/
theorem cycleRecord_word_eq_none_iff (s : State) (f : Fault) : (cycleRecord s f).word = none ↔ 4095 ≤ s.pc.toNat := by
  rcases Nat.lt_or_ge s.pc.toNat 4095 with h | h
  · simp [cycleRecord, fetchWord_ok s (by omega), h]
  · simp [cycleRecord, fetchWord_fault s h, h]

theorem cycleRecord_word_eq_some_iff (s : State) (f : Fault) (w : Word) :
    (cycleRecord s f).word = some w ↔ Fetches s w := by
  rcases Nat.lt_or_ge s.pc.toNat 4095 with h | h
  · have hin : s.pc.toNat + 1 < 4096 := by omega
    simp [cycleRecord, Fetches, fetchWord_ok s hin, hin, eq_comm]
  · simp [cycleRecord, Fetches, fetchWord_fault s h]
    omega

/-- Settles O58: kind, code and info are read off the fault, the rest from the faults a cycle can raise. -/
theorem faultRecordNamesWordAndAddress : Obligations.FaultRecordNamesWordAndAddress := by
  refine ⟨fun s f h => ⟨cycleRecord s f, cycleReply_of_fault h, rfl, cycleRecord_word_eq_none_iff s f,
    fun w => (cycleRecord_word_eq_some_iff s f w).mp, ?decode, ?overflow, ?underflow, ?range, ?font, ?key⟩,
    fun s bytes => ⟨fun hlen => ?loaded, fun hlen => ?tooLong⟩, fun s k => ⟨fun hk => ?keySet, fun hk => ?keyRefused⟩⟩
  case decode =>
    rintro w a rfl
    obtain ⟨hf, ha⟩ : Fetches s w ∧ a = s.pc := by simpa using fault_of_cycle h
    exact ⟨rfl, rfl, rfl, (cycleRecord_word_eq_some_iff _ _ _).mpr hf, ha⟩
  case overflow =>
    rintro a rfl
    obtain ⟨_, ha⟩ : (∃ w, Fetches s w) ∧ a = s.pc := by simpa using fault_of_cycle h
    exact ⟨rfl, rfl, rfl, ha⟩
  case underflow =>
    rintro a rfl
    obtain ⟨_, ha⟩ : (∃ w, Fetches s w) ∧ a = s.pc := by simpa using fault_of_cycle h
    exact ⟨rfl, rfl, rfl, ha⟩
  case range =>
    rintro a rfl
    have ha : 4096 ≤ a := by
      rcases fault_of_cycle h with ⟨_, hf⟩ | ⟨_, _, hf⟩
      · exact (Nat.le_max_right _ _).trans_eq (Fault.memoryRange.inj hf).symm
      · simpa using hf
    exact ⟨rfl, rfl, rfl, ha⟩
  case font =>
    rintro a rfl
    obtain ⟨_, ha⟩ : (∃ w, Fetches s w) ∧ a < 80 := by simpa using fault_of_cycle h
    exact ⟨rfl, rfl, rfl, Nat.le_of_lt_succ ha⟩
  case key =>
    rintro k rfl
    obtain ⟨_, hk⟩ : (∃ w, Fetches s w) ∧ 15 < k.toNat := by simpa using fault_of_cycle h
    exact ⟨rfl, rfl, rfl, hk⟩
  case loaded => simp [replyTo, commandReply, loadImage_ok s bytes hlen]
  case tooLong => rw [replyTo, loadImage_refused s bytes hlen]; rfl
  case keySet =>
    have hok (b : Bool) := keyCommand_ok s ⟨k, by omega⟩ b
    simp only at hok
    simp [replyTo, hok, commandReply]
  case keyRefused => rw [replyTo, replyTo, keyCommand_refused s k _ hk, keyCommand_refused s k _ hk]; exact ⟨rfl, rfl⟩

end Sys2Proof.Machine
end

section
/-! Proofs of the statements on memory and the instructions that use it (20_memory.md; 42_index_memory.md R145 to R149).
First layer: a canonical memory is determined by its reads, what is read where a block was written and elsewhere, and a
store as one operation. -/

namespace Sys2Proof.Machine

/-! ### The canonical form (log 20) -/

/-- An address that no cell names reads as after reset. -/
theorem Memory.read_of_not_listed {m : List Host.Cell} {a : Nat} (h : ∀ c ∈ m, c.1 ≠ a) :
    Memory.read m a = Memory.unlisted a := by
  induction m with
  | nil => rfl
  | cons c m ih =>
    rw [Memory.read, if_neg (h c List.mem_cons_self), ih fun d hd => h d (List.mem_cons_of_mem c hd)]

/-- In a rising list the byte listed for an address is the byte read there. -/
theorem Memory.read_of_mem {m : List Host.Cell} {c : Host.Cell} (hm : m.Pairwise fun c d => c.1 < d.1) (hc : c ∈ m) :
    Memory.read m c.1 = c.2 := by
  induction m with
  | nil => exact absurd hc List.not_mem_nil
  | cons d m ih =>
    obtain ⟨hd, hm⟩ := List.pairwise_cons.mp hm
    rcases List.mem_cons.mp hc with rfl | hc
    · exact if_pos rfl
    · rw [Memory.read, if_neg (hd c hc).ne, ih hm hc]

/-- The cells of a canonical memory, by what it reads: the bytes that differ from their reset value. -/
theorem Memory.mem_iff_read {m : List Host.Cell} (hm : Memory.wf m) (c : Host.Cell) :
    c ∈ m ↔ Memory.read m c.1 = c.2 ∧ c.2 ≠ Memory.unlisted c.1 := by
  obtain ⟨hrising, hcells⟩ := hm
  constructor
  · exact fun hc => ⟨Memory.read_of_mem hrising hc, (hcells c hc).2⟩
  · rintro ⟨hread, hne⟩
    by_contra hc
    refine hne (hread.symm.trans (Memory.read_of_not_listed fun d hd haddr => hc ?_))
    have hval : d.2 = c.2 := by rw [← Memory.read_of_mem hrising hd, haddr, hread]
    exact Prod.ext haddr hval ▸ hd

theorem Memory.nodup_of_wf {m : List Host.Cell} (hm : Memory.wf m) : m.Nodup :=
  hm.1.imp fun hlt h => absurd (congrArg Prod.fst h) hlt.ne

/-- Settles O34: the two lists have the same cells, and there is one rising order of them. -/
theorem canonicalMemoriesAreEqual : Obligations.CanonicalMemoriesAreEqual := by
  intro m m' hm hm' hread
  have hperm : m.Perm m' := (List.perm_ext_iff_of_nodup (Memory.nodup_of_wf hm) (Memory.nodup_of_wf hm')).mpr fun c => by
    rw [Memory.mem_iff_read hm, Memory.mem_iff_read hm', hread]
  exact hperm.eq_of_pairwise (fun c d _ _ hcd hdc => absurd hcd hdc.asymm) hm.1 hm'.1

/-! ### The other font policies (R58) -/

/-- The `ignore` policy: as a block write, but the font reads as before (R58). -/
theorem Memory.read_writeOutsideFont (bs : List Byte) (m : List Host.Cell) (a b : Nat) :
    Memory.read (Memory.writeOutsideFont m a bs) b =
      if a ≤ b ∧ 80 ≤ b then bs[b - a]?.getD (Memory.read m b) else Memory.read m b := by
  induction bs generalizing m a with
  | nil => simp [Memory.writeOutsideFont]
  | cons v vs ih =>
    have hhead : Memory.read (if Memory.inFont a then m else Memory.write m a v) b =
        if b = a ∧ 80 ≤ b then v else Memory.read m b := by
      by_cases hfont : a < 80
      · have hb : ¬ (b = a ∧ 80 ≤ b) := by omega
        simp [Memory.inFont, hfont, hb]
      · rw [if_neg (by simp [Memory.inFont, hfont]), Memory.read_write]
        by_cases hb : b = a
        · simp [hb, Nat.le_of_not_lt hfont]
        · simp [hb]
    rw [Memory.writeOutsideFont, ih, hhead]
    by_cases hfont : 80 ≤ b
    · rcases Nat.lt_trichotomy b a with hlt | rfl | hgt
      · have h1 : ¬ a + 1 ≤ b := by omega
        have h2 : ¬ a ≤ b := by omega
        simp [h1, h2, hlt.ne]
      · simp [hfont]
      · have hsucc : b - a = (b - (a + 1)) + 1 := by omega
        simp [hfont, hgt.ne', hgt.le, Nat.succ_le_of_lt hgt, hsucc]
    · simp [hfont]

/-- Settles O33, from what each of the two policies leaves at every address. -/
theorem otherFontPoliciesWriteOrSkip : Obligations.OtherFontPoliciesWriteOrSkip := by
  intro s addr bytes
  refine ⟨fun hin => ⟨⟨_, ?write, sameBut_setMem s _, s.readByte_writeBytes addr bytes⟩,
    ⟨_, ?ignore, sameBut_setMem s _, Memory.read_writeOutsideFont bytes s.mem addr⟩⟩,
    fun hout hne p => s.memWrite_range p addr bytes hout hne⟩
  case write | ignore => simp [State.memWrite, Memory.firstOutside_eq, hin]

/-! ### A store (R58, R145, R146) -/

/-- What a store that ends a command does: its block lands at the address, or it faults on the range or the font. -/
theorem finish_memWrite_spec (s : State) (addr : Nat) {bs : List Byte} (hne : bs ≠ []) (hlen : bs.length ≤ 16) :
    (80 ≤ addr → addr + bs.length ≤ 4096 → ∃ t, finish (s.memWrite .fault addr bs) = .next t ∧
      (∀ (k : Nat) (v : Byte), bs[k]? = some v → t.readByte (addr + k) = v) ∧
      (∀ a, (a < addr ∨ addr + bs.length ≤ a) → t.readByte a = s.readByte a) ∧ SameBut [.memory] s t) ∧
    (4096 < addr + bs.length → finish (s.memWrite .fault addr bs) = .fault (.memoryRange (max addr 4096))) ∧
    (addr < 80 → finish (s.memWrite .fault addr bs) = .fault (.fontWrite addr)) := by
  refine ⟨fun hfont hin => ?_, fun hout => ?_, fun hfont => ?_⟩
  · exact ⟨_, by rw [s.memWrite_ok addr bs hin hfont, finish_ok], fun _ _ => readByte_writeBytes_inside s addr,
      fun _ => readByte_writeBytes_outside s, sameBut_setMem s _⟩
  · rw [s.memWrite_range .fault addr bs hout hne, finish_error]
  · rw [s.memWrite_font addr bs hfont hlen hne, finish_error]

/-- R144 digit by digit. -/
theorem bcd3_digits (v : Byte) : ∃ hundreds tens ones, bcd3 v = [hundreds, tens, ones] ∧
    hundreds.toNat = v.toNat / 100 ∧ tens.toNat = v.toNat / 10 % 10 ∧ ones.toNat = v.toNat % 10 :=
  ⟨_, _, _, rfl, by simpa [bcd3] using digitConverterGivesDecimalDigits v⟩

/-- Settles O29: a store of the three digits. -/
theorem storeBcdStoresThreeDigits : Obligations.StoreBcdStoresThreeDigits := by
  intro x s
  obtain ⟨hundreds, tens, ones, hbcd, h2, h1, h0⟩ := bcd3_digits (s.getV x)
  obtain ⟨hstore, hrange, hfont⟩ := finish_memWrite_spec s (baseAddr s) (bcd3_ne_nil (s.getV x)) (by simp)
  refine ⟨fun hlow hhigh => ?_, fun hout => hrange (by rw [bcd3_length]; omega), hfont⟩
  obtain ⟨t, hexec, hin, hout, hsame⟩ := hstore hlow (by rw [bcd3_length]; omega)
  rw [hbcd] at hin
  exact ⟨t, hexec, (congrArg BitVec.toNat (hin 0 hundreds rfl)).trans h2,
    (congrArg BitVec.toNat (hin 1 tens rfl)).trans h1, (congrArg BitVec.toNat (hin 2 ones rfl)).trans h0, hout, hsame⟩

/-- Settles O30: a store of the block of registers. -/
theorem storeRegsStoresTheBlock : Obligations.StoreRegsStoresTheBlock := by
  intro x s
  have hx := x.isLt
  have hlen := regBlock_length s x
  obtain ⟨hstore, hrange, hfont⟩ := finish_memWrite_spec s (baseAddr s) (regBlock_ne_nil s x) (by omega)
  rw [hlen] at hstore hrange
  refine ⟨fun hlow hhigh => ?_, fun hout => hrange (by omega), hfont⟩
  obtain ⟨t, hexec, hin, hout, hsame⟩ := hstore hlow (by omega)
  exact ⟨t, hexec, fun k hk => hin _ _ (regBlock_get s x k hk), fun a ha => hout a (by omega), hsame⟩

/-- Settles O32: the store that answered wrote both bytes inside the memory. -/
theorem storedWordIsFetched : Obligations.StoredWordIsFetched := by
  intro x k s t target hk hexec htarget
  obtain ⟨hspec, hrange, hfont⟩ := storeRegsStoresTheBlock x s
  have hlow : 80 ≤ baseAddr s := by
    by_contra hlow
    exact nomatch (hfont (by omega)).symm.trans hexec
  have hhigh : baseAddr s + x.toNat < 4096 := by
    by_contra hhigh
    exact nomatch (hrange (by omega)).symm.trans hexec
  obtain ⟨u, hu, hin, -⟩ := hspec hlow hhigh
  obtain rfl := Host.Outcome.next.inj (hu.symm.trans hexec)
  have hsucc : (k + 1#4).toNat = k.toNat + 1 := by bv_omega
  have hsecond := hin (k + 1#4) (by omega)
  rw [hsucc, ← Nat.add_assoc] at hsecond
  refine ⟨?_, ?_⟩
  · simp only [State.setPc_pc, htarget, Config.memSize]
    omega
  · simp only [State.setPc_pc, State.readByte_setPc, htarget, hin k hk.le, hsecond]

/-! ### A load of registers (R147) -/

/-- Settles O31, from the two cases of load-regs. -/
theorem loadRegsLoadsTheBlock : Obligations.LoadRegsLoadsTheBlock := by
  intro x s
  rcases exec_loadRegs_cases s x with ⟨hout, hexec⟩ | ⟨hin, hexec⟩
  · rw [blockLen] at hout
    exact ⟨fun h => by omega, fun _ => hexec⟩
  · have hin' := hin
    rw [blockLen] at hin'
    refine ⟨fun _ => ⟨_, hexec, fun k hk => ?_, fun k hk => ?_, sameBut_setBlock s _⟩, fun h => by omega⟩
    · have hlt : k.toNat < blockLen x := Nat.lt_succ_of_le hk
      simp [State.getV_setBlock, hlt]
    · have hle : blockLen x ≤ k.toNat := hk
      simp [State.getV_setBlock, hle]

/-! ### load, the host's command (R208, R221) -/

/-- Settles O43: a load that fits is a block write at 0x200. -/
theorem loadCopiesTheImage : Obligations.LoadCopiesTheImage := by
  intro bytes s
  refine ⟨fun hlen => ⟨_, by rw [runCommand, loadImage_ok s bytes hlen, orUnchanged_ok], sameBut_setMem s _,
    fun k hk => ?_, fun a => readByte_writeBytes_outside s⟩,
    fun hlen => by rw [runCommand, loadImage_refused s bytes hlen, orUnchanged_error]⟩
  have hget : bytes[k]? = some bytes[k] := List.getElem?_eq_getElem hk
  rw [readByte_writeBytes_inside s 0x200 hget, hget]

end Sys2Proof.Machine
end

section
/-! Proofs of the statements on single instructions: control (40_control.md), arithmetic (41_alu.md), the index register
(42_index_memory.md) and the keypad (44_keys_timers.md). First layer: the flag byte, two register writes in either order,
and the lowest pressed key. -/

namespace Sys2Proof.Machine

/-! ### Control transfer (R104, R109) -/

/-- Settles O15: the meaning of jump-offset is one write of `pc`. -/
theorem jumpOffsetAddsV0 : Obligations.JumpOffsetAddsV0 :=
  fun nnn s => ⟨s.setPc (offsetTarget s nnn), rfl, toNat_offsetTarget s nnn, sameBut_setPc s _⟩

/-- Settles O17, from the two cases of call. -/
theorem callPushesTheReturnAddress : Obligations.CallPushesTheReturnAddress := by
  intro nnn s
  rcases exec_call_cases s nnn with ⟨hfull, hexec⟩ | ⟨hroom, hexec⟩
  · exact ⟨fun h => absurd hfull h.ne, fun _ => hexec⟩
  · refine ⟨fun _ => ⟨_, hexec, rfl, fun k => ?_, toNat_absTarget nnn, sameBut_setSlot_setSP_setPc s _ _ _ _⟩,
      fun h => absurd h hroom.ne⟩
    exact (s.stack_setSlot ⟨s.sp.val, hroom⟩ k s.pc).trans (by simp only [Fin.ext_iff])

/-- Settles O19: return pops the slot that call wrote. -/
theorem callThenReturnContinuesAfterTheCall : Obligations.CallThenReturnContinuesAfterTheCall := by
  intro nnn s hroom
  obtain ⟨t, hcall, htsp, htstack, -, htsame⟩ := (callPushesTheReturnAddress nnn s).1 hroom
  have hadvsp : t.advance.sp.val = s.sp.val + 1 := htsp
  obtain ⟨u, hret, husp, hustack, hupc, husame⟩ := (returnPopsIntoThePc t.advance).1 (by omega)
  have hpc : u.pc = s.pc := by
    rw [hupc ⟨s.sp.val, hroom⟩ hadvsp.symm]
    exact (htstack ⟨s.sp.val, hroom⟩).trans (if_pos rfl)
  refine ⟨t, u, hcall, hret, hpc, Fin.ext (by omega), fun k hk => ?_, fun p hp => ?_⟩
  · exact (hustack k).trans ((htstack k).trans (if_neg hk))
  · by_cases hp' : p = .pc
    · exact hp' ▸ hpc
    · have hframe : p ∉ [Part.pc, Part.stack] := by simp_all
      exact ((htsame p hframe).trans (sameBut_setPc t _ p (by simpa using hp'))).trans (husame p hframe)

/-! ### Logic and flags (R124 to R133) -/

/-- Settles O21: each of the three is one register write. -/
theorem logicWorksBitwiseAndKeepsVF : Obligations.LogicWorksBitwiseAndKeepsVF := by
  intro x y s
  obtain ⟨t, hor, hvor, hframeOr⟩ := writesOneReg_of_exec_eq_setV (i := .orReg x y) (s := s) rfl
  obtain ⟨u, hand, hvand, hframeAnd⟩ := writesOneReg_of_exec_eq_setV (i := .andReg x y) (s := s) rfl
  obtain ⟨w, hxor, hvxor, hframeXor⟩ := writesOneReg_of_exec_eq_setV (i := .xorReg x y) (s := s) rfl
  exact ⟨⟨t, hor, fun b => by rw [hvor, BitVec.getLsbD_or], hframeOr⟩,
    ⟨u, hand, fun b => by rw [hvand, BitVec.getLsbD_and], hframeAnd⟩,
    ⟨w, hxor, fun b => by rw [hvxor, BitVec.getLsbD_xor], hframeXor⟩⟩

/-- Writes of different registers commute. -/
theorem State.setV_comm (s : State) {x y : Nibble} (h : x ≠ y) (v u : Byte) :
    (s.setV x v).setV y u = (s.setV y u).setV x v := by
  have hne : x.toNat ≠ y.toNat := fun e => h (BitVec.eq_of_toNat_eq e)
  simp only [State.setV, Vector.set_comm _ _ hne]

/-- Settles O23: the two writes of WriteRF commute unless they are of the same register. -/
theorem writeRFOrdersDifferOnlyAtVF : Obligations.WriteRFOrdersDifferOnlyAtVF := by
  intro x res f s
  refine ⟨fun hx => ⟨s.setV_comm hx _ _, ?_, ?_⟩, ?_,
    fun o => ⟨sameRegsBut_writeRF o x res f s, sameBut_writeRF o x res f s⟩⟩
  · exact (getV_writeRF s .flagLast x x res f).trans ((if_neg hx).trans (if_pos rfl))
  · exact State.getV_setV_self _ vf _
  · rintro rfl
    exact ⟨State.getV_setV_self _ vf _, State.getV_setV_self _ 15#4 _⟩

theorem toNat_flagByte (f : Bool) : (flagByte f).toNat = if f then 1 else 0 := by cases f <;> rfl

/-- R133 on this hardware, once for the five flag instructions: VF is the flag, V[x] the result unless it is VF. -/
theorem writesResultAndFlag_of_exec_eq_writeRF {i : Instr} {s : State} {x : Nibble} {res : Byte} {f : Bool}
    {value flag : Nat} (hexec : exec i s = .next (writeRF .flagLast x res f s)) (hres : res.toNat = value)
    (hflag : (if f then 1 else 0) = flag) :
    ∃ t, exec i s = .next t ∧ (t.getV 15#4).toNat = flag ∧ (x ≠ 15#4 → (t.getV x).toNat = value) ∧
      SameRegsBut [x, 15#4] s t ∧ SameBut [.regs] s t := by
  obtain ⟨hne, heq, hframe⟩ := writeRFOrdersDifferOnlyAtVF x res f s
  refine ⟨_, hexec, ?_, fun hx => by rw [(hne hx).2.1, hres], hframe .flagLast⟩
  exact (congrArg BitVec.toNat (State.getV_setV_self _ vf (flagByte f))).trans ((toNat_flagByte f).trans hflag)

/-- Settles O24, from the integer results and flags of O22. -/
theorem flagInstructionsOnThisHardware : Obligations.FlagInstructionsOnThisHardware := by
  intro x y s a b ha hb
  obtain ⟨hadd, hsub, hsubRev, hshr, hshl⟩ := flagInstructionsWriteResultAndFlag x y s a b ha hb
  have hav : a < 256 := ha ▸ (s.getV x).isLt
  have hbv : b < 256 := hb ▸ (s.getV y).isLt
  refine ⟨writesResultAndFlag_of_exec_eq_writeRF hadd (BitVec.toNat_ofNat _ _) ?_,
    writesResultAndFlag_of_exec_eq_writeRF hsub (BitVec.toNat_ofNat _ _) ?_,
    writesResultAndFlag_of_exec_eq_writeRF hsubRev (BitVec.toNat_ofNat _ _) ?_,
    writesResultAndFlag_of_exec_eq_writeRF hshr ((BitVec.toNat_ofNat _ _).trans (Nat.mod_eq_of_lt (by omega))) ?_,
    writesResultAndFlag_of_exec_eq_writeRF hshl ((BitVec.toNat_ofNat _ _).trans (by rw [Nat.mul_comm])) ?_⟩
  all_goals
    simp only [decide_eq_true_eq]
    split <;> omega

/-- Settles O25: random counts a draw and is one register write. -/
theorem randomWritesTheMaskedDraw : Obligations.RandomWritesTheMaskedDraw := by
  intro x nn s
  exact ⟨fun r => ⟨_, rfl, s.getV_setV_self x _, sameRegsBut_setV s x _, sameBut_setV s x _⟩,
    _, rfl, State.getV_setV_self _ x _, sameRegsBut_setV s.nextDraw x _, exec_sameBut (.random x nn) s _ rfl, rfl, rfl⟩

/-! ### The index register (R141, R142) -/

/-- Settles O27: each of the two is one write of I. -/
theorem addIndexAndFontIndexWriteOnlyI : Obligations.AddIndexAndFontIndexWriteOnlyI := by
  intro x s
  have hv := (s.getV x).isLt
  refine ⟨⟨_, rfl, ?add, sameBut_setI s _⟩, ⟨_, rfl, ?font, sameBut_setI s _⟩⟩
  case add => rw [State.setI_i, BitVec.toNat_add, toNat_zext16 _ (by decide)]
  case font =>
    rw [State.setI_i, BitVec.toNat_mul, toNat_zext16 _ (by decide)]
    exact (Nat.mod_eq_of_lt (by simp; omega)).trans (Nat.mul_comm _ _)

/-! ### The keypad (R170 to R174, R223) -/

/-- Settles O38, from the two cases of the key skips. -/
theorem keySkipsReadTheNamedKey : Obligations.KeySkipsReadTheNamedKey := by
  intro x s
  rcases exec_keySkips_cases s x with ⟨hout, hskip, hskipNot⟩ | ⟨hin, hskip, hskipNot⟩
  · exact ⟨fun k hk => by omega, fun _ => ⟨hskip, hskipNot⟩⟩
  · refine ⟨fun k hk => ?_, fun h => by omega⟩
    obtain rfl : (⟨_, hin⟩ : Fin 16) = k := Fin.ext hk
    refine ⟨⟨_, hskip, s.skipIf_pc _, sameBut_skipIf s _⟩, ⟨_, hskipNot, ?_, sameBut_skipIf s _⟩⟩
    rw [State.skipIf_pc]
    cases s.key ⟨_, hin⟩ <;> rfl

/-- The key found is the one with none pressed below it (R173). -/
theorem lowestKey_eq_some {s : State} {k : Fin 16} (hk : s.key k = true) (hlow : ∀ j : Fin 16, j < k → s.key j = false) :
    s.lowestKey = some k := by
  refine List.find?_eq_some_iff_getElem.mpr ⟨hk, k.val, by simp, by simp, fun j hj => ?_⟩
  have hj' := hlow ⟨j, hj.trans k.isLt⟩ hj
  simpa using hj'

theorem exec_waitKey_of_lowest {s : State} {k : Fin 16} (x : Nibble) (h : s.lowestKey = some k) :
    exec (.waitKey x) s = .next (s.setV x (BitVec.ofNat 8 k.val)) := by
  simp [exec, execWaitKey, h]

theorem exec_waitKey_of_none {s : State} (x : Nibble) (h : s.lowestKey = none) :
    exec (.waitKey x) s = .next (s.setPc s.pc0) := by
  simp [exec, execWaitKey, h]

theorem toNat_ofNat_key (k : Fin 16) : (BitVec.ofNat 8 k.val).toNat = k.val :=
  (BitVec.toNat_ofNat _ _).trans (Nat.mod_eq_of_lt (k.isLt.trans (by decide)))

/-- Settles O39, from the two cases of wait-key. -/
theorem waitKeyTakesTheLowestKey : Obligations.WaitKeyTakesTheLowestKey := by
  intro x s
  refine ⟨fun k hk hlow => ?_, fun hnone => ?_⟩
  · obtain ⟨t, hexec, hv, hframe⟩ := writesOneReg_of_exec_eq_setV (exec_waitKey_of_lowest x (lowestKey_eq_some hk hlow))
    exact ⟨t, hexec, by rw [hv, toNat_ofNat_key], hframe⟩
  · exact ⟨_, exec_waitKey_of_none x ((lowestKey_none s).mpr hnone), rfl, sameBut_setPc s _⟩

/-- A key command on a key that exists is one write of the keypad (R223). -/
theorem runCommand_key (s : State) (k : Fin 16) :
    runCommand (.keyDown k.val) s = .next (s.setKey k true) ∧ runCommand (.keyUp k.val) s = .next (s.setKey k false) := by
  rw [runCommand, runCommand, keyCommand_ok, keyCommand_ok]
  exact ⟨rfl, rfl⟩

/-- Writing a key twice is writing it once. -/
theorem State.setKey_setKey (s : State) (k : Fin 16) (b : Bool) : (s.setKey k b).setKey k b = s.setKey k b := by
  simp [State.setKey]

/-- Settles O44: one write of the keypad each, or a refusal. -/
theorem keyCommandsSetOneKey : Obligations.KeyCommandsSetOneKey := by
  intro s
  refine ⟨fun k => ?_, fun k hk => ?_⟩
  · obtain ⟨hdown, hup⟩ := runCommand_key s k
    exact ⟨_, _, hdown, hup, fun j => s.key_setKey k j true, fun j => s.key_setKey k j false,
      sameBut_setKey s k true, sameBut_setKey s k false,
      by rw [(runCommand_key _ k).1, State.setKey_setKey], by rw [(runCommand_key _ k).2, State.setKey_setKey]⟩
  · rw [runCommand, runCommand, keyCommand_refused s k _ hk, keyCommand_refused s k _ hk]
    exact ⟨rfl, rfl⟩

end Sys2Proof.Machine
end

section
/-! Proofs of the statements on the step, on placed words and on the values after reset (30_encoding.md R79 to R83;
60_exceptions.md R226; 70_reset_and_hazards.md R240). First layer: the step of a host that calls cycle. -/

namespace Sys2Proof.Machine

/-! ### The step (log 10) -/

/-- Settles O9. -/
theorem stepIssuesTheNextHostCommand : Obligations.StepIssuesTheNextHostCommand :=
  fun s => ⟨step_of_quiet s, fun c rest => step_of_cons s c rest⟩

/-- A step whose command is a cycle is a cycle of the core, the command gone. -/
theorem step_of_nextCommand_cycle {s : State} (h : nextCommand s = .cycle) : step s = cycle (afterIssue s) := by
  rw [step, hostStep, h, runCommand]

/-- Settles O8: a cycle reads nothing of the script. -/
theorem stepRunsTheDecodedInstruction : Obligations.StepRunsTheDecodedInstruction := by
  intro s w i hscript hf hd
  have hnext : nextCommand s = .cycle := by
    rcases hscript with h | ⟨rest, h⟩ <;> simp [nextCommand, h]
  have hf' : Fetches (afterIssue s) w := hf
  exact (step_of_nextCommand_cycle hnext).trans (cycle_of_fetches hf' hd)

/-- Settles O12. -/
theorem noOpChangesNothing : Obligations.NoOpChangesNothing := by
  refine ⟨fun _ _ => rfl, fun s hscript hf => ?_⟩
  have hd : decode 0x0000#16 = .ok (.noOp 0#12) := by decide
  rw [step_of_quiet s hscript, cycle_of_fetches hf hd]
  rfl

/-- Settles O13, by induction on the number of steps, each a no-op. -/
theorem zeroedMemoryIsSlidThrough : Obligations.ZeroedMemoryIsSlidThrough := by
  intro s k hscript hend hzero
  induction k generalizing s with
  | zero => simp [run_zero]
  | succ k ih =>
    have hf : Fetches s 0x0000#16 := by
      refine ⟨by simp; omega, ?_⟩
      rw [hzero _ le_rfl (by omega), hzero _ (Nat.le_add_right _ 1) (by omega)]
      decide
    have hpc : s.advance.pc.toNat = s.pc.toNat + 2 := toNat_advance_pc (by omega)
    have hstep : step s = .next s.advance := noOpChangesNothing.2 s hscript hf
    rw [run_succ_of_next s k s.advance hstep,
      ih s.advance hscript (by omega) fun a hlow hhigh => hzero a (by omega) (by omega)]
    have hsum : s.pc + 2#16 + BitVec.ofNat 16 (2 * k) = s.pc + BitVec.ofNat 16 (2 * (k + 1)) := by
      rw [BitVec.add_assoc, Nat.mul_succ, Nat.add_comm (2 * k) 2, BitVec.ofNat_add]
    exact congrArg (fun w => Host.Outcome.next (s.setPc w)) hsum

/-- Settles O40: a stall is a cycle that changes nothing, so any number of them does; a press makes the key the lowest. -/
theorem waitKeyStallsUntilAKeyIsPressed : Obligations.WaitKeyStallsUntilAKeyIsPressed := by
  intro s w x hscript hf hd hnone
  have hlow : s.lowestKey = none := (lowestKey_none s).mpr hnone
  have hcycle : cycle s = .next s := by
    have hpc0 : s.advance.pc0 = s.pc := BitVec.add_sub_cancel _ _
    rw [cycle_of_fetches hf hd, exec_waitKey_of_none x (s := s.advance) hlow, hpc0]
    rfl
  refine ⟨hcycle, by simp [cycleReply, hcycle, stalls_of_waitKey hf hd, hlow], fun n => ?_, fun k => ?_⟩
  · induction n with
    | zero => exact run_zero s
    | succ n ih => rw [run_succ_of_next s n s ((step_of_quiet s hscript).trans hcycle), ih]
  · have hlowest : (s.setKey k true).lowestKey = some k :=
      lowestKey_eq_some (by simp [State.key_setKey]) fun j hj => by simp [State.key_setKey, hj.ne, hnone]
    have hf' : Fetches (s.setKey k true) w := hf
    have hcycle' := (cycle_of_fetches hf' hd).trans (exec_waitKey_of_lowest x (s := (s.setKey k true).advance) hlowest)
    exact ⟨_, _, (runCommand_key s k).1, hcycle', by simp [cycleReply, hcycle', stalls_of_waitKey hf' hd, hlowest],
      (congrArg BitVec.toNat (State.getV_setV_self _ x _)).trans (toNat_ofNat_key k), rfl⟩

/-! ### A placed word (log 11) -/

theorem tableWord_16 {w : Nat} (h : w < 65536) : tableWord 16 w = BitVec.ofNat 16 w := by
  exact congrArg (BitVec.ofNat 16) (Nat.mod_eq_of_lt h)

theorem placeAt_add_one_lt (s : State) : placeAt s + 1 < 4096 := by
  unfold placeAt
  split
  case isTrue h => exact h
  case isFalse => decide

theorem toNat_placeWord_pc (s : State) (w : Word) : (placeWord s w).pc.toNat = placeAt s := by
  have h := placeAt_add_one_lt s
  exact (BitVec.toNat_ofNat _ _).trans (Nat.mod_eq_of_lt (by omega))

theorem fetches_placeWord (s : State) (w : Word) : Fetches (placeWord s w) w := by
  refine ⟨by rw [toNat_placeWord_pc]; exact placeAt_add_one_lt s, ?_⟩
  have hfirst : (placeWord s w).readByte (placeAt s) = w.extractLsb' 8 8 :=
    readByte_writeBytes_inside s (placeAt s) (bs := wordBytes w) (k := 0) rfl
  have hsecond : (placeWord s w).readByte (placeAt s + 1) = w.extractLsb' 0 8 :=
    readByte_writeBytes_inside s (placeAt s) (bs := wordBytes w) (k := 1) rfl
  rw [toNat_placeWord_pc, hfirst, hsecond, bigEndian_wordBytes]

theorem sameBut_placeWord (s : State) (w : Word) : SameBut [.pc, .memory, .host] s (placeWord s w) := by
  intro p hp
  cases p with
  | pc | memory | host => simp at hp
  | regs | keys | screen => exact fun _ => rfl
  | stack => exact ⟨rfl, fun _ => rfl⟩
  | index | delay | sound => exact rfl

/-- Settles O10. -/
theorem placedWordIsFetched : Obligations.PlacedWordIsFetched := by
  intro s w hw
  rw [State.withFetchWord, tableWord_16 hw]
  refine ⟨fetches_placeWord s _, rfl, rfl, fun hpc => ?inside, fun hpc => ?outside, fun a hfirst hsecond => ?bytes,
    sameBut_placeWord s _⟩
  case inside =>
    have hin : s.pc.toNat + 1 < Config.memSize := Nat.succ_lt_succ hpc
    exact BitVec.eq_of_toNat_eq ((toNat_placeWord_pc s _).trans (if_pos hin))
  case outside =>
    have hout : ¬ s.pc.toNat + 1 < Config.memSize := by simp; omega
    exact BitVec.eq_of_toNat_eq ((toNat_placeWord_pc s _).trans (if_neg hout))
  case bytes =>
    rw [toNat_placeWord_pc] at hfirst hsecond
    refine readByte_writeBytes_outside s (bs := wordBytes _) ?_
    simp only [wordBytes, List.length_cons, List.length_nil]
    omega

/-! ### The values after reset (R36, R240) -/

theorem length_fontBytes : Params.fontBytes.length = 80 := rfl

/-- Settles O46. -/
theorem initStateValues : Obligations.InitStateValues := by
  refine ⟨fun s => ⟨resetCore s, rfl, sameBut_reset_resetCore s⟩, fun a ha => ?font, fun a ha => ?zero, rfl, fun r => ?regs,
    rfl, fun k => ?stack, rfl, rfl, rfl, fun k => ?keys, fun p => ?screen⟩
  case font =>
    have hget := List.getElem?_eq_getElem (l := Params.fontBytes) (i := a) (by rwa [length_fontBytes])
    change Params.fontBytes[a]? = some (Params.fontBytes[a]?.getD 0#8)
    rw [hget, Option.getD_some]
  case zero =>
    change Params.fontBytes[a]?.getD 0#8 = 0#8
    rw [List.getElem?_eq_none (by rwa [length_fontBytes]), Option.getD_none]
  case regs => simp [State.getV, State.reset]
  case stack => simp [State.reset]
  case keys => simp [State.key, State.reset]
  case screen => exact Grid.lit_blank p

end Sys2Proof.Machine
end

section
/-! Proofs of the statements on draw (43_display.md R161 to R165). First layer: the cells a draw visits are those the
sprite covers, and what one draw leaves on the screen and in VF. -/

namespace Sys2Proof.Machine

/-- The cells of the sprite of `draw x y n` at `s`, in the order R161 visits them. -/
def coveredCells (s : State) (x y n : Nibble) : List CellPos :=
  spriteCells .msbFirst (s.getV x) (s.getV y) 0 ((List.range' (baseAddr s) n.toNat).map s.readByte)

theorem mem_coveredCells (s : State) (x y n : Nibble) (p : CellPos) :
    p ∈ coveredCells s x y n ↔ SpriteCovers s x y n p := by
  rw [coveredCells, mem_spriteCells]
  constructor
  · rintro ⟨r, hr, col, hcol, hbit, rfl⟩
    exact ⟨r, col, by simpa using hr, hcol, by simpa using hbit, by simp [spriteCell], by simp [spriteCell]⟩
  · rintro ⟨r, col, hr, hcol, hbit, hrow, hcell⟩
    exact ⟨r, by simpa using hr, col, hcol, by simpa using hbit,
      Prod.ext (Fin.ext (by simpa [spriteCell] using hrow)) (Fin.ext (by simpa [spriteCell] using hcell))⟩

theorem coveredCells_nodup (s : State) (x y n : Nibble) : (coveredCells s x y n).Nodup := by
  have hn := n.isLt
  exact spriteCells_nodup _ _ _ 0 (by simp; omega)

/-- R161 and R164: a draw that answers toggles the cells it visits, and VF is the collision. -/
theorem lit_getV_of_exec_draw {x y n : Nibble} {s t : State} (h : exec (.draw x y n) s = .next t) :
    (∀ p, t.lit p = if p ∈ coveredCells s x y n then !s.lit p else s.lit p) ∧
    t.getV 15#4 = flagByte ((coveredCells s x y n).any s.lit) := by
  obtain ⟨hlit, hflag⟩ := plot_nodup s.fb false (coveredCells s x y n) (coveredCells_nodup s x y n)
  rcases exec_draw_cases s x y n with ⟨_, _, hexec⟩ | ⟨_, hexec⟩
  · exact nomatch hexec.symm.trans h
  · obtain rfl := Host.Outcome.next.inj (hexec.symm.trans h)
    refine ⟨hlit, (getV_drawRows s .msbFirst x y vf _).trans ((if_pos rfl).trans (congrArg flagByte ?_))⟩
    exact hflag.trans (Bool.false_or _)

theorem flagByte_any_eq_one_iff (ps : List CellPos) (f : CellPos → Bool) :
    flagByte (ps.any f) = 1#8 ↔ ∃ p ∈ ps, f p = true := by
  rw [← List.any_eq_true]
  cases ps.any f <;> simp

theorem flagByte_any_eq_zero_iff (ps : List CellPos) (f : CellPos → Bool) :
    flagByte (ps.any f) = 0#8 ↔ ∀ p ∈ ps, f p = false := by
  have hany : ps.any f = false ↔ ∀ p ∈ ps, f p = false := by simp
  rw [← hany]
  cases ps.any f <;> simp

/-- Settles O36, from the two cases of draw and the cells it visits. -/
theorem drawTogglesTheCoveredCells : Obligations.DrawTogglesTheCoveredCells := by
  intro x y n s
  have hn0 : n.toNat = 0 ↔ n = 0#4 := BitVec.toNat_inj (y := 0#4)
  rcases exec_draw_cases s x y n with ⟨hout, hne, hexec⟩ | ⟨hin, hexec⟩
  · exact ⟨fun h => absurd h (by rw [← hn0]; omega), fun _ _ => hexec⟩
  · refine ⟨fun _ => ⟨_, hexec, ?_⟩, fun h hne => by rw [Ne, ← hn0] at hne; omega⟩
    obtain ⟨hlit, hvf⟩ := lit_getV_of_exec_draw hexec
    simp only [← mem_coveredCells]
    refine ⟨fun p hp => (hlit p).trans (if_pos hp), fun p hp => (hlit p).trans (if_neg hp),
      fun hp => hvf.trans ((flagByte_any_eq_one_iff _ _).mpr hp), fun hp => hvf.trans ((flagByte_any_eq_zero_iff _ _).mpr hp),
      fun r hr => getV_of_exec hexec (by simpa [writesReg] using hr),
      fun p hp => same_of_exec hexec (by simp_all [writtenParts])⟩

/-- A draw moves no sprite whose coordinates are not in VF. -/
theorem coveredCells_of_exec_draw {x y n : Nibble} {s t : State} (hx : x ≠ 15#4) (hy : y ≠ 15#4)
    (h : exec (.draw x y n) s = .next t) : coveredCells t x y n = coveredCells s x y n := by
  have hi : baseAddr t = baseAddr s := congrArg BitVec.toNat (same_of_exec h (p := .index) (by simp [writtenParts]))
  have hmem : t.readByte = s.readByte := funext (same_of_exec h (p := .memory) (by simp [writtenParts]))
  rw [coveredCells, coveredCells, getV_of_exec h (r := x) hx, getV_of_exec h (r := y) hy, hi, hmem]

/-- Settles O37: both draws toggle the same cells, and the second finds lit those the first lit. -/
theorem drawingTwiceRestoresTheScreen : Obligations.DrawingTwiceRestoresTheScreen := by
  intro x y n s t u hx hy hfirst hsecond
  obtain ⟨htlit, -⟩ := lit_getV_of_exec_draw hfirst
  obtain ⟨hulit, huvf⟩ := lit_getV_of_exec_draw hsecond
  rw [coveredCells_of_exec_draw hx hy hfirst] at hulit huvf
  constructor
  · intro p
    by_cases hp : p ∈ coveredCells s x y n <;> simp [hulit, htlit, hp]
  · rw [huvf, flagByte_any_eq_one_iff]
    refine exists_congr fun p => ?_
    rw [← mem_coveredCells]
    exact and_congr_right fun hp => by simp [htlit, hp]

end Sys2Proof.Machine
end
